-- ==== Sys2Proof/Word.lean ====
section
/-! DEFINITION. The word types of the machine (00_scope.md R4, R6): every value is an unsigned bit
vector of the width the spec gives it, and there is no signed interpretation anywhere. -/

namespace Sys2Proof

/-- One byte of memory, one general register, a timer, an immediate `nn`. -/
abbrev Byte := BitVec 8

/-- One instruction word, and the width of I, PC and a stack slot. -/
abbrev Word := BitVec 16

/-- A register nibble `x` or `y`, a key index, a sprite height `n`, a stack slot number. -/
abbrev Nibble := BitVec 4

/-- A 12-bit address immediate `nnn`. -/
abbrev Addr12 := BitVec 12

end Sys2Proof
end

