-- ==== Sys2Proof/Config.lean ====
section
/-! DEFINITION. The sizes the spec fixes (00_scope.md R4) and the one free value of the machine, the
entropy byte of `Cxnn` (42_alu.md R70). The two open parameters of R5 that have a value, FONT and
FX0A_CLOBBER_VX, stand in Machine/Params.lean. -/

namespace Sys2Proof.Config

/-- Bytes of memory: addresses 0x000 to 0xFFF (R4 `MEM_SIZE`). -/
abbrev memSize : Nat := 4096

/-- The load address and entry point (R4 `PROG_BASE`). -/
abbrev progBase : Nat := 0x200

/-- The most bytes `load_program` takes (R4 `PROG_MAX`). -/
abbrev progMax : Nat := 3584

/-- Bytes of the glyph table (R4 `FONT_SIZE`). -/
abbrev fontSize : Nat := 80

/-- Bytes per glyph (R4 `GLYPH_SIZE`). -/
abbrev glyphSize : Nat := 5

/-- Return addresses the call stack holds (R4 `STACK_DEPTH`). -/
abbrev stackDepth : Nat := 16

/-- Framebuffer columns and rows (R4 `FB_COLS`, `FB_ROWS`). -/
abbrev fbCols : Nat := 64
abbrev fbRows : Nat := 32

/-- The byte the entropy source answers to the `k`-th request (42_alu.md R70, 60_exceptions.md R102): "a
free 8-bit value per executed `Cxnn`, with no distribution, no seed ... and no relation between successive
draws". It has no body, so that a proof about it holds for every source. Log entry 4. -/
opaque entropy : Nat → Byte

end Sys2Proof.Config
end

