-- ==== Sys2Proof/Machine/Params.lean ====
section
/-! DEFINITION. The two parameters the source leaves open and the spec gives a value (00_scope.md R5). They stand
under Machine/ so that a later repair may change a value. -/

namespace Sys2Proof.Machine

/-- FONT (20_memory.md R27, decision D13): the 80 bytes at 0x000 to 0x04F after reset, five a glyph, digits 0 to F.
PRESUMED: the spec marks the values as from general knowledge and not in the source (log entry 5). -/
def fontTable : List (BitVec 8) :=
  [0xF0, 0x90, 0x90, 0x90, 0xF0,  0x20, 0x60, 0x20, 0x20, 0x70] ++
  [0xF0, 0x10, 0xF0, 0x80, 0xF0,  0xF0, 0x10, 0xF0, 0x10, 0xF0] ++
  [0x90, 0x90, 0xF0, 0x10, 0x10,  0xF0, 0x80, 0xF0, 0x10, 0xF0] ++
  [0xF0, 0x80, 0xF0, 0x90, 0xF0,  0xF0, 0x10, 0x20, 0x40, 0x40] ++
  [0xF0, 0x90, 0xF0, 0x90, 0xF0,  0xF0, 0x90, 0xF0, 0x10, 0xF0] ++
  [0xF0, 0x90, 0xF0, 0x90, 0x90,  0xE0, 0x90, 0xE0, 0x90, 0xE0] ++
  [0xF0, 0x80, 0x80, 0x80, 0xF0,  0xE0, 0x90, 0x90, 0x90, 0xE0] ++
  [0xF0, 0x80, 0xF0, 0x80, 0xF0,  0xF0, 0x80, 0xF0, 0x80, 0x80]

/-- FX0A_CLOBBER_VX (45_keypad.md R83, decision D7): an unsuccessful key wait writes 0x00 to Vx. `true` for this
hardware, the spec's own choice among two (log entry 6). -/
def fx0aClobberVx : Bool := true

end Sys2Proof.Machine
end

