-- ==== Sys2Proof/Machine/State.lean ====
section
/-! DEFINITION. The machine state, exactly the list of 10_state.md R8 and one field of the model's own (`draws`),
as plain data; the reasons a step can stop; the state after reset (10_state.md R22). -/

namespace Sys2Proof.Machine

/-- The fault causes of 60_exceptions.md R88, by name. -/
inductive FaultCause where
  | noFault
  | fetchOutOfBounds
  | unimplementedOpcode
  | stackOverflow
  | stackUnderflow
  | memAddrOutOfBounds
  | keyIndexOutOfRange
  | programTooLarge
  | hostKeyIndexOutOfRange
  deriving DecidableEq, Repr

/-- The 4-bit code of a cause (R88). -/
def FaultCause.code : FaultCause → BitVec 4
  | .noFault => 0
  | .fetchOutOfBounds => 1
  | .unimplementedOpcode => 2
  | .stackOverflow => 3
  | .stackUnderflow => 4
  | .memAddrOutOfBounds => 5
  | .keyIndexOutOfRange => 6
  | .programTooLarge => 7
  | .hostKeyIndexOutOfRange => 8

/-- The fault record `FAULT` (10_state.md R20). -/
structure FaultRecord where
  cause : FaultCause
  opcode : Word
  addr : Word
  deriving DecidableEq, Repr

/-- Memory as cells: addresses strictly rising, no cell equal to the reset contents of its address (`Memory.wf`). -/
abbrev Memory := List Host.Cell

/-- The machine state (10_state.md R8). -/
structure State where
  /-- General registers V0 to VF (R9); VF is number 15 (R10). -/
  v : Vector Byte 16
  /-- The address register I (R11). -/
  i : Word
  /-- The program counter (R12): between ticks, the address of the next instruction. -/
  pc : Word
  /-- The call stack slots (R13). -/
  stack : Vector Word 16
  /-- The stack pointer: how many return addresses are on the stack, 0 to 16 (R14). -/
  sp : BitVec 5
  /-- The delay timer (R15). -/
  dt : Byte
  /-- The sound timer (R16). -/
  st : Byte
  /-- The key latches, `true` = pressed (R17). -/
  key : Vector Bool 16
  /-- The framebuffer (R18): row `row` from the top, its column `col` from the left at bit `col`. -/
  fb : Vector (BitVec 64) 32
  /-- Memory (R19). -/
  mem : Memory
  /-- The fault record (R20). -/
  fault : FaultRecord
  /-- The MODEL'S own field, not the spec's: how many bytes the entropy source has been asked for (log entry 4). -/
  draws : Nat
  deriving DecidableEq, Repr

/-- Why the model stops without a next state. A fault of the HARDWARE is no such stop: it is taken, as a next
state with FAULT written (60_exceptions.md R90, `raise` in Machine/Ops.lean). -/
inductive Fault where
  /-- CALL or RET met a stack pointer from 17 to 31, for which there is no slot: "The values 17 to 31 are never
  reached" (10_state.md R14). Raised by CALL and RET; safe (log entry 3). -/
  | stackPointerOutOfRange
  deriving DecidableEq, Repr

/-- Why the model has no meaning for an instruction. -/
inductive Refusal where
  /-- An arm of `exec` whose instruction has no meaning yet; raised by no arm of this model; safe. -/
  | notModelled (mnemonic : String)
  deriving DecidableEq, Repr

/-- What a meaning answers. -/
abbrev Result := Host.Outcome State Fault Refusal

/-- No fault latched: cause 0, and then the other two fields are 0 (R20). -/
def FaultRecord.clear : FaultRecord := ⟨.noFault, 0x0000, 0x0000⟩

/-- The machine right after `new` or `reset` (10_state.md R22). Memory lists nothing: an unlisted address reads as
its reset contents, the font table or 0x00 (`resetByte`). -/
def State.reset : State where
  v := Vector.replicate 16 0x00
  i := 0x0000
  pc := 0x0200
  stack := Vector.replicate 16 0x0000
  sp := 0
  dt := 0x00
  st := 0x00
  key := Vector.replicate 16 false
  fb := Vector.replicate 32 0
  mem := []
  fault := FaultRecord.clear
  draws := 0

end Sys2Proof.Machine
end

