-- ==== Sys2Proof/Machine/Ops.lean ====
section
/-! DEFINITION. The named operations over registers, memory, the call stack, the latches and the framebuffer, and
`raise`, the one way a fault is taken. Every meaning goes through them. -/

namespace Sys2Proof.Machine

/-! ### Registers (00_scope.md R7, 10_state.md R9 to R12) -/

/-- `V[x]`. -/
def State.getV (s : State) (x : Nibble) : Byte := s.v[x.toNat]'x.isLt

/-- `V[x] <- b`. No register is hardwired (10_state.md R9). -/
def State.setV (s : State) (x : Nibble) (b : Byte) : State :=
  { s with v := s.v.set x.toNat b x.isLt }

/-- The number of VF: `VF` is `V[15]` (10_state.md R10). -/
abbrev vF : Nibble := 0xF

/-- `I <- w`. -/
def State.setI (s : State) (w : Word) : State := { s with i := w }

/-- `PC <- w`. -/
def State.setPc (s : State) (w : Word) : State := { s with pc := w }

/-- The fetch's advance, `PC <- a + 2` (30_encoding.md R48): what every execute step finds. -/
def State.advance (s : State) : State := s.setPc (s.pc + 2)

/-- A skip when `c` holds: a further `PC <- PC + 2` (41_skip.md R54). -/
def State.skipIf (s : State) (c : Bool) : State := if c then s.setPc (s.pc + 2) else s

/-! ### Faults (60_exceptions.md R87, R90) -/

/-- Fault entry, the one operation every fault of the hardware goes through (R90). It is applied to the state `s` at
the START of the operation, so every write the operation made is gone: the state is `s`, plus the record. There is no
return from a fault (R91); only `opReset` and `opNew` (Machine/HostOps.lean) leave the faulted state. -/
def State.latch (s : State) (cause : FaultCause) (opcode addr : Word) : State :=
  { s with fault := ⟨cause, opcode, addr⟩ }

/-- `raise cause(opcode, addr)` inside a tick. The tick's result Err(FAULT) is the record itself (log entry 1). -/
def raise (cause : FaultCause) (opcode addr : Word) (s : State) : Result :=
  .next (s.latch cause opcode addr)

/-! ### Memory (20_memory.md) -/

/-- What an address no cell lists reads as, its reset contents: the font table at 0x000 to 0x04F and 0x00 above
(10_state.md R19, R22). -/
def resetByte (a : Nat) : Byte := fontTable.getD a 0x00

/-- `mem[a]`, with no check (00_scope.md R7). -/
def memGet : Memory → Nat → Byte
  | [], a => resetByte a
  | c :: m, a => if c.1 = a then c.2 else memGet m a

/-- A memory without the cell of `a`. -/
def memErase (m : Memory) (a : Nat) : Memory := m.filter (fun c => c.1 != a)

/-- A cell put in the place its address has in the rising order. -/
def memInsert : Memory → Host.Cell → Memory
  | [], c => [c]
  | d :: m, c => if c.1 < d.1 then c :: d :: m else d :: memInsert m c

/-- `mem[a] <- b`. A byte equal to the reset contents of its address is not listed. -/
def memSet (m : Memory) (a : Nat) (b : Byte) : Memory :=
  if b = resetByte a then memErase m a else memInsert (memErase m a) (a, b)

/-- The canonical form: addresses strictly rising and inside the address space (20_memory.md R25), no cell equal to
the reset contents of its address. -/
abbrev Memory.wf (m : Memory) : Prop :=
  m.Pairwise (fun c d => c.1 < d.1) ∧ ∀ c ∈ m, c.1 < Config.memSize ∧ c.2 ≠ resetByte c.1

/-- The `n` bytes at `a`, lowest address first. -/
def readBytes (m : Memory) (a : Nat) : Nat → List Byte
  | 0 => []
  | n + 1 => memGet m a :: readBytes m (a + 1) n

/-- Bytes written from `a` upward, lowest address first. -/
def writeBytes (m : Memory) (a : Nat) : List Byte → Memory
  | [] => m
  | b :: bs => writeBytes (memSet m a b) (a + 1) bs

/-- The bound of R31, tested for the whole transfer (R32), without wrap: it fails when `n > 0` and
`addr + n - 1 > 0xFFF`. -/
def transferFits (addr : Word) (n : Nat) : Bool :=
  !(decide (n > 0) && decide (addr.toNat + n - 1 > 0xFFF))

/-- The address a failed transfer records: `max(addr, 0x1000)`, the lowest address outside memory it would touch
(R31). -/
def firstOutside (addr : Word) : Word := if addr.toNat < 0x1000 then 0x1000 else addr

/-- `MemRead(addr, n)` (R31); `none` where it raises. -/
def memRead (s : State) (addr : Word) (n : Nat) : Option (List Byte) :=
  if transferFits addr n then some (readBytes s.mem addr.toNat n) else none

/-- `MemWrite(addr, n, bytes)` (R31) onto a state; `none` where it raises. -/
def memWrite (s : State) (addr : Word) (bytes : List Byte) : Option State :=
  if transferFits addr bytes.length then some { s with mem := writeBytes s.mem addr.toNat bytes } else none

/-- `raise MemAddrOutOfBounds` for the instruction word `op` and a transfer at I (60_exceptions.md R88, cause 5). -/
def raiseMemFault (op : Word) (s : State) : Result :=
  raise .memAddrOutOfBounds op (firstOutside s.i) s

/-- The word at `a`, big-endian (20_memory.md R28). -/
def fetchWordAt (m : Memory) (a : Nat) : Word := memGet m a ++ memGet m (a + 1)

/-! ### The call stack (10_state.md R13, R14) -/

/-- Stack slot `k`. -/
def State.slot (s : State) (k : Nibble) : Word := s.stack[k.toNat]'k.isLt

/-- `stack[k] <- w`. -/
def State.setSlot (s : State) (k : Nibble) (w : Word) : State :=
  { s with stack := s.stack.set k.toNat w k.isLt }

/-- A push: writes `stack[SP]`, then adds 1 to SP. Used only with `SP < 16`, where the low four bits of SP are the
slot's number. -/
def State.push (s : State) (w : Word) : State :=
  { s.setSlot (s.sp.setWidth 4) w with sp := s.sp + 1 }

/-- The slot a pop reads, `stack[SP - 1]`. Used only with `0 < SP <= 16`. -/
def State.top (s : State) : Word := s.slot ((s.sp - 1).setWidth 4)

/-- A pop's change of the state: subtracts 1 from SP; the slot keeps its value (R13). -/
def State.dropTop (s : State) : State := { s with sp := s.sp - 1 }

/-! ### Key latches (10_state.md R17) -/

/-- `key[k]`. -/
def State.keyAt (s : State) (k : Nibble) : Bool := s.key[k.toNat]'k.isLt

/-- `key[k] <- b`; only the host operation `set_key` uses it. -/
def State.setKey (s : State) (k : Nibble) (b : Bool) : State :=
  { s with key := s.key.set k.toNat b k.isLt }

/-- The least pressed key, if any is pressed (45_keypad.md R83). -/
def State.lowestKey (s : State) : Option Nibble :=
  ((List.range 16).map (BitVec.ofNat 4)).find? s.keyAt

/-! ### Framebuffer (10_state.md R18, 20_memory.md R39) -/

/-- The framebuffer as stored: 32 rows of 64 pixels. -/
abbrev Framebuffer := Vector (BitVec 64) 32

/-- The pixel at a column and a row, `fb[col + 64*row]`. -/
def fbGet (fb : Framebuffer) (col : BitVec 6) (row : BitVec 5) : Bool :=
  (fb[row.toNat]'row.isLt).getLsbD col.toNat

/-- `fb[col + 64*row] <- fb[col + 64*row] ^ 1`. -/
def fbFlip (fb : Framebuffer) (col : BitVec 6) (row : BitVec 5) : Framebuffer :=
  fb.set row.toNat ((fb[row.toNat]'row.isLt) ^^^ (1#64 <<< col.toNat)) row.isLt

/-- All pixels off. -/
def fbClear : Framebuffer := Vector.replicate 32 0

/-- The pixel at a column and a row. -/
def State.pixel (s : State) (col : BitVec 6) (row : BitVec 5) : Bool := fbGet s.fb col row

/-! ### Timers and entropy (10_state.md R15, R16; 42_alu.md R70) -/

/-- `DT <- b`. -/
def State.setDt (s : State) (b : Byte) : State := { s with dt := b }

/-- `ST <- b`. -/
def State.setSt (s : State) (b : Byte) : State := { s with st := b }

/-- The byte the next `rand8()` answers: a free value (log entry 4). -/
def State.nextEntropy (s : State) : Byte := Config.entropy s.draws

/-- One request made to the entropy source. -/
def State.countDraw (s : State) : State := { s with draws := s.draws + 1 }

end Sys2Proof.Machine
end

