-- ==== Sys2Proof/Machine/Flags.lean ====
section
/-! DEFINITION. The flag computations (42_alu.md R71): VF is the only flag, always 0x00 or 0x01 when written as a
side effect, and written last (10_state.md R10, decision D6). -/

namespace Sys2Proof.Machine

/-- A flag as the byte VF receives: 0x00 or 0x01. -/
def flagByte (c : Bool) : Byte := if c then 0x01 else 0x00

/-- Carry of `8xy4`: the true sum exceeds 255 (R65). -/
def carryFlag (vx vy : Byte) : Bool := decide (vx.toNat + vy.toNat > 255)

/-- No borrow of `a - b`: `a >= b` (R66, R68). -/
def noBorrowFlag (a b : Byte) : Bool := decide (a.toNat ≥ b.toNat)

/-- The bit `8xy6` drops: bit 0 of the old Vx (R67). -/
def shrFlag (vx : Byte) : Bool := vx.getLsbD 0

/-- The bit `8xyE` drops: bit 7 of the old Vx (R69). -/
def shlFlag (vx : Byte) : Bool := vx.getLsbD 7

/-- The two writes of a flag-setting instruction in their order: `V[x]` first, VF last (R71). -/
def State.setVWithFlag (s : State) (x : Nibble) (result : Byte) (flag : Bool) : State :=
  (s.setV x result).setV vF (flagByte flag)

end Sys2Proof.Machine
end

