-- ==== Sys2Proof/Machine/Alu.lean ====
section
/-! DEFINITION. Register load, arithmetic, logic, shift and random instructions (42_alu.md R59 to R71). Every source
is read from the state before any write. -/

namespace Sys2Proof.Machine

/-- `6xnn` LD Vx, nn (R59). -/
def execLdVxNn (x : Nibble) (nn : Byte) (s : State) : Result := .next (s.advance.setV x nn)

/-- `7xnn` ADD Vx, nn (R60): wraps, no flag. -/
def execAddVxNn (x : Nibble) (nn : Byte) (s : State) : Result := .next (s.advance.setV x (s.getV x + nn))

/-- `8xy0` LD Vx, Vy (R61). -/
def execLdVxVy (x y : Nibble) (s : State) : Result := .next (s.advance.setV x (s.getV y))

/-- `8xy1` OR Vx, Vy (R62): no flag. -/
def execOrVxVy (x y : Nibble) (s : State) : Result := .next (s.advance.setV x (s.getV x ||| s.getV y))

/-- `8xy2` AND Vx, Vy (R63): no flag. -/
def execAndVxVy (x y : Nibble) (s : State) : Result := .next (s.advance.setV x (s.getV x &&& s.getV y))

/-- `8xy3` XOR Vx, Vy (R64): no flag. -/
def execXorVxVy (x y : Nibble) (s : State) : Result := .next (s.advance.setV x (s.getV x ^^^ s.getV y))

/-- `8xy4` ADD Vx, Vy (R65). -/
def execAddVxVy (x y : Nibble) (s : State) : Result :=
  .next (s.advance.setVWithFlag x (s.getV x + s.getV y) (carryFlag (s.getV x) (s.getV y)))

/-- `8xy5` SUB Vx, Vy (R66): `Vx - Vy`, VF = no borrow. -/
def execSubVxVy (x y : Nibble) (s : State) : Result :=
  .next (s.advance.setVWithFlag x (s.getV x - s.getV y) (noBorrowFlag (s.getV x) (s.getV y)))

/-- `8xy6` SHR Vx (R67): `y` is ignored. -/
def execShrVx (x _y : Nibble) (s : State) : Result :=
  .next (s.advance.setVWithFlag x (s.getV x >>> 1) (shrFlag (s.getV x)))

/-- `8xy7` SUBN Vx, Vy (R68): `Vy - Vx`, VF = no borrow. -/
def execSubnVxVy (x y : Nibble) (s : State) : Result :=
  .next (s.advance.setVWithFlag x (s.getV y - s.getV x) (noBorrowFlag (s.getV y) (s.getV x)))

/-- `8xyE` SHL Vx (R69): `y` is ignored. -/
def execShlVx (x _y : Nibble) (s : State) : Result :=
  .next (s.advance.setVWithFlag x (s.getV x <<< 1) (shlFlag (s.getV x)))

/-- `Cxnn` RND Vx, nn (R70): one draw of the entropy source. -/
def execRndVxNn (x : Nibble) (nn : Byte) (s : State) : Result :=
  .next (s.advance.countDraw.setV x (s.nextEntropy &&& nn))

end Sys2Proof.Machine
end

