-- ==== Sys2Proof/Syntax.lean ====
section
/-! DEFINITION. The 35 instructions of spec/opcode_table.json, in its order, one constructor a row. Operands
have exactly the width of their field (30_encoding.md R41, R43), so every term of `Instr` is an instruction:
`x` and `y` "index the general registers directly (0 to 15, every value legal)". -/

namespace Sys2Proof

inductive Instr where
  /-- `0000` NOP (R49). -/
  | nop
  /-- `00E0` CLS (R78). -/
  | cls
  /-- `00EE` RET (R50). -/
  | ret
  /-- `1nnn` JP nnn (R51). -/
  | jp (nnn : Addr12)
  /-- `2nnn` CALL nnn (R52). -/
  | call (nnn : Addr12)
  /-- `3xnn` SE Vx, nn (R55). -/
  | seVxNn (x : Nibble) (nn : Byte)
  /-- `4xnn` SNE Vx, nn (R56). -/
  | sneVxNn (x : Nibble) (nn : Byte)
  /-- `5xy0` SE Vx, Vy (R57). -/
  | seVxVy (x y : Nibble)
  /-- `6xnn` LD Vx, nn (R59). -/
  | ldVxNn (x : Nibble) (nn : Byte)
  /-- `7xnn` ADD Vx, nn (R60). -/
  | addVxNn (x : Nibble) (nn : Byte)
  /-- `8xy0` LD Vx, Vy (R61). -/
  | ldVxVy (x y : Nibble)
  /-- `8xy1` OR Vx, Vy (R62). -/
  | orVxVy (x y : Nibble)
  /-- `8xy2` AND Vx, Vy (R63). -/
  | andVxVy (x y : Nibble)
  /-- `8xy3` XOR Vx, Vy (R64). -/
  | xorVxVy (x y : Nibble)
  /-- `8xy4` ADD Vx, Vy (R65). -/
  | addVxVy (x y : Nibble)
  /-- `8xy5` SUB Vx, Vy (R66). -/
  | subVxVy (x y : Nibble)
  /-- `8xy6` SHR Vx (R67); `y` is in the encoding and ignored. -/
  | shrVx (x y : Nibble)
  /-- `8xy7` SUBN Vx, Vy (R68). -/
  | subnVxVy (x y : Nibble)
  /-- `8xyE` SHL Vx (R69); `y` is in the encoding and ignored. -/
  | shlVx (x y : Nibble)
  /-- `9xy0` SNE Vx, Vy (R58). -/
  | sneVxVy (x y : Nibble)
  /-- `Annn` LD I, nnn (R72). -/
  | ldINnn (nnn : Addr12)
  /-- `Bnnn` JP V0, nnn (R53). -/
  | jpV0Nnn (nnn : Addr12)
  /-- `Cxnn` RND Vx, nn (R70). -/
  | rndVxNn (x : Nibble) (nn : Byte)
  /-- `Dxyn` DRW Vx, Vy, n (R79). -/
  | drwVxVyN (x y n : Nibble)
  /-- `Ex9E` SKP Vx (R81). -/
  | skpVx (x : Nibble)
  /-- `ExA1` SKNP Vx (R82). -/
  | sknpVx (x : Nibble)
  /-- `Fx07` LD Vx, DT (R84). -/
  | ldVxDt (x : Nibble)
  /-- `Fx0A` LD Vx, K (R83). -/
  | ldVxK (x : Nibble)
  /-- `Fx15` LD DT, Vx (R85). -/
  | ldDtVx (x : Nibble)
  /-- `Fx18` LD ST, Vx (R86). -/
  | ldStVx (x : Nibble)
  /-- `Fx1E` ADD I, Vx (R73). -/
  | addIVx (x : Nibble)
  /-- `Fx29` LD F, Vx (R74). -/
  | ldFVx (x : Nibble)
  /-- `Fx33` LD B, Vx, the BCD kernel (R75). -/
  | ldBVx (x : Nibble)
  /-- `Fx55` LD [I], Vx, block store (R76). -/
  | ldMemVx (x : Nibble)
  /-- `Fx65` LD Vx, [I], block load (R77). -/
  | ldVxMem (x : Nibble)
  deriving DecidableEq, Repr

end Sys2Proof
end

