-- ==== Sys2Proof/WellFormed.lean ====
section
/-! DEFINITION. Well-formedness. The operands of an `Instr` have the exact width of their field, so no term of
`Instr` is ill-formed (30_encoding.md R43: "every value legal"); what can be ill-formed is a WORD. This file holds
spec/opcode_table.json as data, one row a constructor, and the check that a word is one of an instruction
(30_encoding.md R44): it matches a row's mask and pattern. The decoder (Decode.lean) is written apart from it, from
the prose table of R44; Certificates/Slice0/Obligations.lean states that the two agree. -/

namespace Sys2Proof

/-- One row of spec/opcode_table.json: its mnemonic, its `mask` and its `match`. -/
structure OpcodeRow where
  mnemonic : String
  mask : Word
  pattern : Word
  deriving DecidableEq, Repr

/-- `op & mask = match` (R44). -/
def OpcodeRow.selects (r : OpcodeRow) (op : Word) : Bool :=
  op &&& r.mask == r.pattern

/-- The row of the table each constructor stands for. -/
def Instr.row : Instr → OpcodeRow
  | .nop => ⟨"NOP", 0xFFFF, 0x0000⟩
  | .cls => ⟨"CLS", 0xFFFF, 0x00E0⟩
  | .ret => ⟨"RET", 0xFFFF, 0x00EE⟩
  | .jp _ => ⟨"JP_nnn", 0xF000, 0x1000⟩
  | .call _ => ⟨"CALL_nnn", 0xF000, 0x2000⟩
  | .seVxNn _ _ => ⟨"SE_Vx__nn", 0xF000, 0x3000⟩
  | .sneVxNn _ _ => ⟨"SNE_Vx__nn", 0xF000, 0x4000⟩
  | .seVxVy _ _ => ⟨"SE_Vx__Vy", 0xF00F, 0x5000⟩
  | .ldVxNn _ _ => ⟨"LD_Vx__nn", 0xF000, 0x6000⟩
  | .addVxNn _ _ => ⟨"ADD_Vx__nn", 0xF000, 0x7000⟩
  | .ldVxVy _ _ => ⟨"LD_Vx__Vy", 0xF00F, 0x8000⟩
  | .orVxVy _ _ => ⟨"OR_Vx__Vy", 0xF00F, 0x8001⟩
  | .andVxVy _ _ => ⟨"AND_Vx__Vy", 0xF00F, 0x8002⟩
  | .xorVxVy _ _ => ⟨"XOR_Vx__Vy", 0xF00F, 0x8003⟩
  | .addVxVy _ _ => ⟨"ADD_Vx__Vy", 0xF00F, 0x8004⟩
  | .subVxVy _ _ => ⟨"SUB_Vx__Vy", 0xF00F, 0x8005⟩
  | .shrVx _ _ => ⟨"SHR_Vx", 0xF00F, 0x8006⟩
  | .subnVxVy _ _ => ⟨"SUBN_Vx__Vy", 0xF00F, 0x8007⟩
  | .shlVx _ _ => ⟨"SHL_Vx", 0xF00F, 0x800E⟩
  | .sneVxVy _ _ => ⟨"SNE_Vx__Vy", 0xF00F, 0x9000⟩
  | .ldINnn _ => ⟨"LD_I__nnn", 0xF000, 0xA000⟩
  | .jpV0Nnn _ => ⟨"JP_V0__nnn", 0xF000, 0xB000⟩
  | .rndVxNn _ _ => ⟨"RND_Vx__nn", 0xF000, 0xC000⟩
  | .drwVxVyN _ _ _ => ⟨"DRW_Vx__Vy__n", 0xF000, 0xD000⟩
  | .skpVx _ => ⟨"SKP_Vx", 0xF0FF, 0xE09E⟩
  | .sknpVx _ => ⟨"SKNP_Vx", 0xF0FF, 0xE0A1⟩
  | .ldVxDt _ => ⟨"LD_Vx__DT", 0xF0FF, 0xF007⟩
  | .ldVxK _ => ⟨"LD_Vx__K", 0xF0FF, 0xF00A⟩
  | .ldDtVx _ => ⟨"LD_DT__Vx", 0xF0FF, 0xF015⟩
  | .ldStVx _ => ⟨"LD_ST__Vx", 0xF0FF, 0xF018⟩
  | .addIVx _ => ⟨"ADD_I__Vx", 0xF0FF, 0xF01E⟩
  | .ldFVx _ => ⟨"LD_F__Vx", 0xF0FF, 0xF029⟩
  | .ldBVx _ => ⟨"LD_B__Vx", 0xF0FF, 0xF033⟩
  | .ldMemVx _ => ⟨"LD__I___Vx", 0xF0FF, 0xF055⟩
  | .ldVxMem _ => ⟨"LD_Vx___I", 0xF0FF, 0xF065⟩

/-- The opcode table: the row of each constructor, in the table's order. -/
def opcodeTable : List OpcodeRow :=
  [Instr.row .nop, Instr.row .cls, Instr.row .ret, (Instr.jp 0).row, (Instr.call 0).row] ++
  [(Instr.seVxNn 0 0).row, (Instr.sneVxNn 0 0).row, (Instr.seVxVy 0 0).row, (Instr.ldVxNn 0 0).row, (Instr.addVxNn 0 0).row] ++
  [(Instr.ldVxVy 0 0).row, (Instr.orVxVy 0 0).row, (Instr.andVxVy 0 0).row, (Instr.xorVxVy 0 0).row, (Instr.addVxVy 0 0).row] ++
  [(Instr.subVxVy 0 0).row, (Instr.shrVx 0 0).row, (Instr.subnVxVy 0 0).row, (Instr.shlVx 0 0).row, (Instr.sneVxVy 0 0).row] ++
  [(Instr.ldINnn 0).row, (Instr.jpV0Nnn 0).row, (Instr.rndVxNn 0 0).row, (Instr.drwVxVyN 0 0 0).row, (Instr.skpVx 0).row] ++
  [(Instr.sknpVx 0).row, (Instr.ldVxDt 0).row, (Instr.ldVxK 0).row, (Instr.ldDtVx 0).row, (Instr.ldStVx 0).row] ++
  [(Instr.addIVx 0).row, (Instr.ldFVx 0).row, (Instr.ldBVx 0).row, (Instr.ldMemVx 0).row, (Instr.ldVxMem 0).row]

/-- The check on a word: some row of the table selects it. A word that fails it is one of the "encodings that
select no instruction" (30_encoding.md R45). -/
def wordWellFormed (op : Word) : Bool :=
  opcodeTable.any (·.selects op)

end Sys2Proof
end

