-- ==== Sys2Proof/Decode.lean ====
section
/-! DEFINITION. Decode and encode (30_encoding.md R40 to R46). Decode is written from the prose table of R44: the
first nibble selects the family, several families discriminate further on the last nibble or the last byte. It is
total and rejects by name. Encode lays the fields out as R41 and R42 give them. -/

namespace Sys2Proof

/-- Why bytes are no instruction. -/
inductive DecodeError where
  /-- Fewer than two bytes: no whole instruction (R40). -/
  | truncated
  /-- The word selects no instruction (R45). -/
  | unimplementedOpcode (op : Word)
  deriving DecidableEq, Repr

/-- The opcode is assembled big-endian: the byte at the lower address is the high byte (R40, 20_memory.md R28). -/
def joinBytes (hi lo : Byte) : Word := hi ++ lo

/-- The two bytes of a word, in the order they lie in memory (20_memory.md R28). -/
def wordBytes (op : Word) : List Byte := [op.extractLsb' 8 8, op.extractLsb' 0 8]

/-- Field `d1`, bits 15:12 (R41). -/
def fieldD1 (op : Word) : Nibble := op.extractLsb' 12 4
/-- Field `x` = `d2`, bits 11:8 (R41). -/
def fieldX (op : Word) : Nibble := op.extractLsb' 8 4
/-- Field `y` = `d3`, bits 7:4 (R41). -/
def fieldY (op : Word) : Nibble := op.extractLsb' 4 4
/-- Field `n` = `d4`, bits 3:0 (R41). -/
def fieldN (op : Word) : Nibble := op.extractLsb' 0 4
/-- Field `nn`, bits 7:0 (R41). -/
def fieldNn (op : Word) : Byte := op.extractLsb' 0 8
/-- Field `nnn`, bits 11:0 (R41). -/
def fieldNnn (op : Word) : Addr12 := op.extractLsb' 0 12

/-- Family 0: "the whole word" discriminates (R44). -/
def decodeFamily0 (op : Word) : Option Instr :=
  if op = 0x0000 then some .nop
  else if op = 0x00E0 then some .cls
  else if op = 0x00EE then some .ret
  else none

/-- Family 8: `d4` discriminates (R44). -/
def decodeFamily8 (x y n : Nibble) : Option Instr :=
  if n = 0x0 then some (.ldVxVy x y)
  else if n = 0x1 then some (.orVxVy x y)
  else if n = 0x2 then some (.andVxVy x y)
  else if n = 0x3 then some (.xorVxVy x y)
  else if n = 0x4 then some (.addVxVy x y)
  else if n = 0x5 then some (.subVxVy x y)
  else if n = 0x6 then some (.shrVx x y)
  else if n = 0x7 then some (.subnVxVy x y)
  else if n = 0xE then some (.shlVx x y)
  else none

/-- Family E: `nn` discriminates (R44). -/
def decodeFamilyE (x : Nibble) (nn : Byte) : Option Instr :=
  if nn = 0x9E then some (.skpVx x)
  else if nn = 0xA1 then some (.sknpVx x)
  else none

/-- Family F: `nn` discriminates (R44, R47). -/
def decodeFamilyF (x : Nibble) (nn : Byte) : Option Instr :=
  if nn = 0x07 then some (.ldVxDt x)
  else if nn = 0x0A then some (.ldVxK x)
  else if nn = 0x15 then some (.ldDtVx x)
  else if nn = 0x18 then some (.ldStVx x)
  else if nn = 0x1E then some (.addIVx x)
  else if nn = 0x29 then some (.ldFVx x)
  else if nn = 0x33 then some (.ldBVx x)
  else if nn = 0x55 then some (.ldMemVx x)
  else if nn = 0x65 then some (.ldVxMem x)
  else none

/-- The instruction a word selects, if any: the table of R44 by first nibble. -/
def decodeOp (op : Word) : Option Instr :=
  let d1 := fieldD1 op
  if d1 = 0x0 then decodeFamily0 op
  else if d1 = 0x1 then some (.jp (fieldNnn op))
  else if d1 = 0x2 then some (.call (fieldNnn op))
  else if d1 = 0x3 then some (.seVxNn (fieldX op) (fieldNn op))
  else if d1 = 0x4 then some (.sneVxNn (fieldX op) (fieldNn op))
  else if d1 = 0x5 then (if fieldN op = 0 then some (.seVxVy (fieldX op) (fieldY op)) else none)
  else if d1 = 0x6 then some (.ldVxNn (fieldX op) (fieldNn op))
  else if d1 = 0x7 then some (.addVxNn (fieldX op) (fieldNn op))
  else if d1 = 0x8 then decodeFamily8 (fieldX op) (fieldY op) (fieldN op)
  else if d1 = 0x9 then (if fieldN op = 0 then some (.sneVxVy (fieldX op) (fieldY op)) else none)
  else if d1 = 0xA then some (.ldINnn (fieldNnn op))
  else if d1 = 0xB then some (.jpV0Nnn (fieldNnn op))
  else if d1 = 0xC then some (.rndVxNn (fieldX op) (fieldNn op))
  else if d1 = 0xD then some (.drwVxVyN (fieldX op) (fieldY op) (fieldN op))
  else if d1 = 0xE then decodeFamilyE (fieldX op) (fieldNn op)
  else decodeFamilyF (fieldX op) (fieldNn op)

/-- Decode one word, rejecting by name. -/
def decodeWord (op : Word) : Except DecodeError Instr :=
  match decodeOp op with
  | some i => .ok i
  | none => .error (.unimplementedOpcode op)

/-- Decode the instruction at the head of a byte stream, with the bytes after it. -/
def decode : List Byte → Except DecodeError (Instr × List Byte)
  | hi :: lo :: rest =>
    match decodeWord (joinBytes hi lo) with
    | .ok i => .ok (i, rest)
    | .error e => .error e
  | _ => .error .truncated

/-- Formats `XNN`, `XY`, `XFN` (R42): the fields from bit 15 down. -/
def formatXNN (d1 x : Nibble) (nn : Byte) : Word := d1 ++ x ++ nn
/-- Format `NNN` (R42). -/
def formatNNN (d1 : Nibble) (nnn : Addr12) : Word := d1 ++ nnn
/-- Formats `XY` and `XYN` (R42). -/
def formatXYN (d1 x y n : Nibble) : Word := d1 ++ x ++ y ++ n

/-- The word of an instruction (R42, R47 and the `match` of each rule R49 to R86). -/
def encode : Instr → Word
  | .nop => 0x0000
  | .cls => 0x00E0
  | .ret => 0x00EE
  | .jp nnn => formatNNN 0x1 nnn
  | .call nnn => formatNNN 0x2 nnn
  | .seVxNn x nn => formatXNN 0x3 x nn
  | .sneVxNn x nn => formatXNN 0x4 x nn
  | .seVxVy x y => formatXYN 0x5 x y 0x0
  | .ldVxNn x nn => formatXNN 0x6 x nn
  | .addVxNn x nn => formatXNN 0x7 x nn
  | .ldVxVy x y => formatXYN 0x8 x y 0x0
  | .orVxVy x y => formatXYN 0x8 x y 0x1
  | .andVxVy x y => formatXYN 0x8 x y 0x2
  | .xorVxVy x y => formatXYN 0x8 x y 0x3
  | .addVxVy x y => formatXYN 0x8 x y 0x4
  | .subVxVy x y => formatXYN 0x8 x y 0x5
  | .shrVx x y => formatXYN 0x8 x y 0x6
  | .subnVxVy x y => formatXYN 0x8 x y 0x7
  | .shlVx x y => formatXYN 0x8 x y 0xE
  | .sneVxVy x y => formatXYN 0x9 x y 0x0
  | .ldINnn nnn => formatNNN 0xA nnn
  | .jpV0Nnn nnn => formatNNN 0xB nnn
  | .rndVxNn x nn => formatXNN 0xC x nn
  | .drwVxVyN x y n => formatXYN 0xD x y n
  | .skpVx x => formatXNN 0xE x 0x9E
  | .sknpVx x => formatXNN 0xE x 0xA1
  | .ldVxDt x => formatXNN 0xF x 0x07
  | .ldVxK x => formatXNN 0xF x 0x0A
  | .ldDtVx x => formatXNN 0xF x 0x15
  | .ldStVx x => formatXNN 0xF x 0x18
  | .addIVx x => formatXNN 0xF x 0x1E
  | .ldFVx x => formatXNN 0xF x 0x29
  | .ldBVx x => formatXNN 0xF x 0x33
  | .ldMemVx x => formatXNN 0xF x 0x55
  | .ldVxMem x => formatXNN 0xF x 0x65

/-- The word of an opcode-table entry whose bits are `w`, of which the lowest `nbits` count (every instruction is
one 16-bit word, so a bit above 15 is none of it). -/
def tableWord (nbits w : Nat) : Word := BitVec.ofNat 16 (w % 2 ^ nbits)

/-- The instruction the decoder reads from an instruction whose bits are `w`: the word laid out big-endian, as it
lies in memory, and given to `decode`. -/
def decodeTableWord (nbits w : Nat) : Option Instr :=
  match decode (wordBytes (tableWord nbits w)) with
  | .ok (i, _) => some i
  | .error _ => none

end Sys2Proof
end

