-- ==== Sys2Proof/Machine/Operands.lean ====
section
/-! DEFINITION. Operand forms (30_encoding.md R43): an immediate is the unsigned number its bits spell,
zero-extended where it meets a wider register; `x` and `y` name general registers; the one memory form is "the byte
at I plus a constant offset the instruction fixes", as a block of bytes at I (43_index_memory.md). -/

namespace Sys2Proof.Machine

/-- `zext_16` of a 12-bit address immediate. -/
def zextAddr (nnn : Addr12) : Word := nnn.setWidth 16

/-- `zext_16` of a byte. -/
def zextByte (b : Byte) : Word := b.setWidth 16

/-- The registers `V[0]` to `V[x]`, in order: the bytes of a block store (43_index_memory.md R76). -/
def State.blockRegs (s : State) (x : Nibble) : List Byte :=
  (List.range (x.toNat + 1)).map (fun k => s.getV (BitVec.ofNat 4 k))

/-- Bytes put into `V[k]`, `V[k+1]`, ... in order: the writes of a block load (43_index_memory.md R77). -/
def State.setBlock (s : State) (k : Nat) : List Byte → State
  | [] => s
  | b :: bs => (s.setV (BitVec.ofNat 4 k) b).setBlock (k + 1) bs

/-- The three decimal digits of a byte, hundreds first, each in a whole byte (43_index_memory.md R75). -/
def bcdDigits (b : Byte) : List Byte :=
  [BitVec.ofNat 8 (b.toNat / 100), BitVec.ofNat 8 (b.toNat / 10 % 10), BitVec.ofNat 8 (b.toNat % 10)]

/-- Whether a byte is the index of a key latch: the whole value counts, unmasked (45_keypad.md R81). -/
def isKeyIndex (b : Byte) : Bool := decide (b.toNat ≤ 15)

/-- The latch a key index names; used only where `isKeyIndex` holds. -/
def keyIndex (b : Byte) : Nibble := b.setWidth 4

end Sys2Proof.Machine
end

