-- ==== Sys2Proof/Machine/Control.lean ====
section
/-! DEFINITION. Control transfer: NOP, RET, JP, CALL, JP V0 (40_control.md R49 to R53). A meaning takes the state at
the start of the tick, with PC at the instruction's own address; `s.advance` is the state its execute step finds. -/

namespace Sys2Proof.Machine

/-- `0000` NOP (R49). -/
def execNop (s : State) : Result := .next s.advance

/-- `00EE` RET (R50). A stack pointer above 16 has no slot below it: the model stops (log entry 3). -/
def execRet (s : State) : Result :=
  if s.sp = 0 then raise .stackUnderflow (encode .ret) s.pc s
  else if s.sp.toNat ≤ Config.stackDepth then .next (s.dropTop.setPc s.top)
  else .fault .stackPointerOutOfRange

/-- `1nnn` JP nnn (R51). -/
def execJp (nnn : Addr12) (s : State) : Result := .next (s.setPc (zextAddr nnn))

/-- `2nnn` CALL nnn (R52): pushes the post-increment PC. A stack pointer above 16 names no slot: the model stops
(log entry 3). -/
def execCall (nnn : Addr12) (s : State) : Result :=
  if s.sp = 16 then raise .stackOverflow (encode (.call nnn)) s.pc s
  else if s.sp.toNat < Config.stackDepth then .next ((s.push s.advance.pc).setPc (zextAddr nnn))
  else .fault .stackPointerOutOfRange

/-- `Bnnn` JP V0, nnn (R53): always register 0, and the sum is not reduced to 12 bits (90_conflicts.md C7). -/
def execJpV0Nnn (nnn : Addr12) (s : State) : Result :=
  .next (s.setPc (zextByte (s.getV 0) + zextAddr nnn))

end Sys2Proof.Machine
end

