-- ==== Sys2Proof/Machine/Display.lean ====
section
/-! DEFINITION. Display: CLS, DRW and the XOR-sprite unit (44_display.md R78 to R80). -/

namespace Sys2Proof.Machine

/-- `00E0` CLS (R78). -/
def execCls (s : State) : Result := .next { s.advance with fb := fbClear }

/-- The column of sprite column `c`: `(vx + c) mod 64` (R79). -/
def spriteCol (vx c : Nat) : BitVec 6 := BitVec.ofNat 6 (vx + c)

/-- The row of sprite row `r`: `(vy + r) mod 32` (R79). -/
def spriteRow (vy r : Nat) : BitVec 5 := BitVec.ofNat 5 (vy + r)

/-- The pixels under the set bits of sprite row `r`, from the left: bit 7 is column offset 0 (R79). -/
def rowPixels (vx vy r : Nat) (row : Byte) : List (BitVec 6 × BitVec 5) :=
  ((List.range 8).filter (fun c => row.getLsbD (7 - c))).map (fun c => (spriteCol vx c, spriteRow vy r))

/-- The pixels under the set bits of the sprite rows from row `r` on, in the order of R79's two loops. -/
def spritePixels (vx vy : Nat) (r : Nat) : List Byte → List (BitVec 6 × BitVec 5)
  | [] => []
  | row :: rows => rowPixels vx vy r row ++ spritePixels vx vy (r + 1) rows

/-- One touched pixel: a hit when it was on, then flipped (R79). -/
def touchPixel (acc : Framebuffer × Bool) (p : BitVec 6 × BitVec 5) : Framebuffer × Bool :=
  (fbFlip acc.1 p.1 p.2, acc.2 || fbGet acc.1 p.1 p.2)

/-- The XOR-sprite unit: the new framebuffer and the collision bit, cleared at the start (R79, R80). -/
def drawSprite (fb : Framebuffer) (vx vy : Byte) (rows : List Byte) : Framebuffer × Bool :=
  (spritePixels vx.toNat vy.toNat 0 rows).foldl touchPixel (fb, false)

/-- `Dxyn` DRW Vx, Vy, n (R79): coordinates read first, VF written last. -/
def execDrwVxVyN (x y n : Nibble) (s : State) : Result :=
  match memRead s s.i n.toNat with
  | some rows =>
    let drawn := drawSprite s.fb (s.getV x) (s.getV y) rows
    .next ({ s.advance with fb := drawn.1 }.setV vF (flagByte drawn.2))
  | none => raiseMemFault (encode (.drwVxVyN x y n)) s

end Sys2Proof.Machine
end

