-- ==== Sys2Proof/Machine/IndexMemory.lean ====
section
/-! DEFINITION. Address register and memory instructions (43_index_memory.md R72 to R77). The transfers are all or
nothing (20_memory.md R32) and leave I as it was. -/

namespace Sys2Proof.Machine

/-- A store of `bytes` at I as the whole effect of the instruction word `op`. -/
def storeAtI (op : Word) (bytes : List Byte) (s : State) : Result :=
  match memWrite s.advance s.i bytes with
  | some t => .next t
  | none => raiseMemFault op s

/-- `Annn` LD I, nnn (R72). -/
def execLdINnn (nnn : Addr12) (s : State) : Result := .next (s.advance.setI (zextAddr nnn))

/-- `Fx1E` ADD I, Vx (R73): wraps at 65536, no flag. -/
def execAddIVx (x : Nibble) (s : State) : Result := .next (s.advance.setI (s.i + zextByte (s.getV x)))

/-- `Fx29` LD F, Vx (R74): the whole byte times 5. -/
def execLdFVx (x : Nibble) (s : State) : Result :=
  .next (s.advance.setI (zextByte (s.getV x) * BitVec.ofNat 16 Config.glyphSize))

/-- `Fx33` LD B, Vx, the BCD kernel (R75). -/
def execLdBVx (x : Nibble) (s : State) : Result :=
  storeAtI (encode (.ldBVx x)) (bcdDigits (s.getV x)) s

/-- `Fx55` LD [I], Vx, block store (R76). -/
def execLdMemVx (x : Nibble) (s : State) : Result :=
  storeAtI (encode (.ldMemVx x)) (s.blockRegs x) s

/-- `Fx65` LD Vx, [I], block load (R77). -/
def execLdVxMem (x : Nibble) (s : State) : Result :=
  match memRead s s.i (x.toNat + 1) with
  | some bytes => .next (s.advance.setBlock 0 bytes)
  | none => raiseMemFault (encode (.ldVxMem x)) s

end Sys2Proof.Machine
end

