-- ==== Sys2Proof/Machine/Keypad.lean ====
section
/-! DEFINITION. Keypad instructions (45_keypad.md R81 to R83). -/

namespace Sys2Proof.Machine

/-- A skip on the level of the latch `V[x]` names: when it is `level`; an index above 15 raises. -/
def skipOnKey (op : Word) (x : Nibble) (level : Bool) (s : State) : Result :=
  if isKeyIndex (s.getV x) then .next (s.advance.skipIf (s.keyAt (keyIndex (s.getV x)) == level))
  else raise .keyIndexOutOfRange op s.pc s

/-- `Ex9E` SKP Vx (R81). -/
def execSkpVx (x : Nibble) (s : State) : Result := skipOnKey (encode (.skpVx x)) x true s

/-- `ExA1` SKNP Vx (R82). -/
def execSknpVx (x : Nibble) (s : State) : Result := skipOnKey (encode (.sknpVx x)) x false s

/-- The key wait for either value of FX0A_CLOBBER_VX (R83). With no key pressed PC goes back from `a + 2` to `a`. -/
def keyWait (clobber : Bool) (x : Nibble) (s : State) : Result :=
  match s.lowestKey with
  | some k => .next (s.advance.setV x (k.setWidth 8))
  | none =>
    let waiting := s.advance.setPc (s.advance.pc - 2)
    .next (if clobber then waiting.setV x 0x00 else waiting)

/-- `Fx0A` LD Vx, K (R83). -/
def execLdVxK (x : Nibble) (s : State) : Result := keyWait fx0aClobberVx x s

end Sys2Proof.Machine
end

