-- ==== Sys2Proof/Machine/Skip.lean ====
section
/-! DEFINITION. Conditional skips on registers (41_skip.md R54 to R58). -/

namespace Sys2Proof.Machine

/-- `3xnn` SE Vx, nn (R55). -/
def execSeVxNn (x : Nibble) (nn : Byte) (s : State) : Result :=
  .next (s.advance.skipIf (s.getV x == nn))

/-- `4xnn` SNE Vx, nn (R56). -/
def execSneVxNn (x : Nibble) (nn : Byte) (s : State) : Result :=
  .next (s.advance.skipIf (s.getV x != nn))

/-- `5xy0` SE Vx, Vy (R57). -/
def execSeVxVy (x y : Nibble) (s : State) : Result :=
  .next (s.advance.skipIf (s.getV x == s.getV y))

/-- `9xy0` SNE Vx, Vy (R58). -/
def execSneVxVy (x y : Nibble) (s : State) : Result :=
  .next (s.advance.skipIf (s.getV x != s.getV y))

end Sys2Proof.Machine
end

