-- ==== Sys2Proof/Machine/Timer.lean ====
section
/-! DEFINITION. Timer access (46_timer.md R84 to R86). The countdown is `opTickTimers` in Machine/HostOps.lean. -/

namespace Sys2Proof.Machine

/-- `Fx07` LD Vx, DT (R84). -/
def execLdVxDt (x : Nibble) (s : State) : Result := .next (s.advance.setV x s.dt)

/-- `Fx15` LD DT, Vx (R85). -/
def execLdDtVx (x : Nibble) (s : State) : Result := .next (s.advance.setDt (s.getV x))

/-- `Fx18` LD ST, Vx (R86). -/
def execLdStVx (x : Nibble) (s : State) : Result := .next (s.advance.setSt (s.getV x))

end Sys2Proof.Machine
end

