-- ==== Sys2Proof/Machine/Cycle.lean ====
section
/-! DEFINITION. The instruction cycle, one `tick` (30_encoding.md R48), in the order of tests of 60_exceptions.md R89:
latched fault, fetch, decode, execute. -/

namespace Sys2Proof.Machine

/-- One instruction tick. The result Err(FAULT) of a tick that raised, and of a tick on a faulted machine (R92), is
the record in the state it answers. -/
def tick (s : State) : Result :=
  if s.fault.cause ≠ .noFault then .next s
  else if s.pc.toNat > 0xFFE then raise .fetchOutOfBounds 0x0000 s.pc s
  else
    match decodeWord (fetchWordAt s.mem s.pc.toNat) with
    | .ok i => exec i s
    | .error _ => raise .unimplementedOpcode (fetchWordAt s.mem s.pc.toNat) s.pc s

/-- A word stored big-endian at PC, where the next fetch reads it; where no fetch at PC can succeed, nothing. -/
def State.storeAtPc (s : State) (op : Word) : State :=
  if s.pc.toNat > 0xFFE then s
  else { s with mem := writeBytes s.mem s.pc.toNat (wordBytes op) }

end Sys2Proof.Machine
end

