-- ==== Sys2Proof/Machine/Step.lean ====
section
/-! DEFINITION. The step of the machine is one instruction tick (30_encoding.md R48). The other operations of the
interface are functions of their own (Machine/HostOps.lean, log entry 2). -/

namespace Sys2Proof.Machine

/-- One step: one `tick`. -/
def step (s : State) : Host.Outcome State Fault Refusal := tick s

/-- `s` with the instruction word `w` stored where `step` fetches its next instruction. -/
def State.withFetchWord (s : State) (nbits w : Nat) : State := s.storeAtPc (tableWord nbits w)

end Sys2Proof.Machine
end

