-- ==== Sys2Proof/Machine/HostOps.lean ====
section
/-! DEFINITION. The seven operations of the interface (60_exceptions.md R95) and schedules of them. An operation is one
atomic transition (20_memory.md R37); operations happen in one total order, which the host chooses and the machine
does not: a schedule is an argument, never a step (log entry 2). -/

namespace Sys2Proof.Machine

/-- The result of an operation. -/
inductive Response where
  /-- Ok. -/
  | ok
  /-- Ok(beep) of `tick_timers` (R96, R98). -/
  | okBeep (beep : Bool)
  /-- The 2048 pixels, row-major (R100). -/
  | pixels (fb : List Bool)
  /-- Err(FAULT): the latched record (R90, R92). -/
  | err (fault : FaultRecord)
  deriving DecidableEq, Repr

/-- The result of an operation that answers Ok unless a fault is latched when it ends. -/
def okOrErr (s : State) : Response := if s.fault.cause = .noFault then .ok else .err s.fault

/-- `new()` (70_reset_and_hazards.md R107): the reset state. The entropy source is outside the machine and goes on
where it stood (R103, R109). -/
def opNew (s : State) : State := { State.reset with draws := s.draws }

/-- `reset()` (70_reset_and_hazards.md R108), "identical to `new()`": it depends on nothing in the prior state and
clears the latch; "reset has no effect on the source" of entropy (R102). -/
def opReset (s : State) : State := { State.reset with draws := s.draws }

/-- `load_program(bytes)` (R101): whole or not at all. -/
def opLoadProgram (bytes : List Byte) (s : State) : State :=
  if s.fault.cause ≠ .noFault then s
  else if bytes.length > Config.progMax then s.latch .programTooLarge 0x0000 0x1000
  else { s with mem := writeBytes s.mem Config.progBase bytes }

/-- `set_key(index, pressed)` (R99). The index is wider than the 4-bit port, so the line that refuses an index above
15 is kept (decision D24, log entry 7). -/
def opSetKey (index : Nat) (pressed : Bool) (s : State) : State :=
  if s.fault.cause ≠ .noFault then s
  else if index > 15 then s.latch .hostKeyIndexOutOfRange 0x0000 (BitVec.ofNat 16 (min index 0xFFFF))
  else s.setKey (BitVec.ofNat 4 index) pressed

/-- One count of a timer: minus 1, clamped at 0 (R96). -/
def countDown (b : Byte) : Byte := if b.toNat > 0 then b - 1 else b

/-- The state after `tick_timers()` (R96). -/
def opTickTimers (s : State) : State :=
  if s.fault.cause ≠ .noFault then s
  else { s with dt := countDown s.dt, st := countDown s.st }

/-- The sound notification of `tick_timers()` (R98): ST was exactly 1 when the operation began. -/
def beep (s : State) : Bool := s.st == 1

/-- `framebuffer_snapshot()` (R100): pixel (col, row) at `col + 64*row`. -/
def opFramebufferSnapshot (s : State) : List Bool :=
  (List.range (Config.fbCols * Config.fbRows)).map
    (fun k => s.pixel (BitVec.ofNat 6 (k % Config.fbCols)) (BitVec.ofNat 5 (k / Config.fbCols)))

/-- An operation with its arguments (R95). -/
inductive Operation where
  | new
  | reset
  | loadProgram (bytes : List Byte)
  | setKey (index : Nat) (pressed : Bool)
  | tick
  | tickTimers
  | framebufferSnapshot
  deriving DecidableEq, Repr

/-- One operation: the state after it and its result. Only a `tick` can stop the model (log entry 3). -/
def perform (op : Operation) (s : State) : Host.Outcome (State × Response) Fault Refusal :=
  match op with
  | .new => .next (opNew s, .ok)
  | .reset => .next (opReset s, .ok)
  | .loadProgram bytes => .next (opLoadProgram bytes s, okOrErr (opLoadProgram bytes s))
  | .setKey index pressed => .next (opSetKey index pressed s, okOrErr (opSetKey index pressed s))
  | .tick =>
    match Sys2Proof.Machine.tick s with
    | .next t => .next (t, okOrErr t)
    | .fault r => .fault r
    | .refused r => .refused r
  | .tickTimers => .next (opTickTimers s, if s.fault.cause = .noFault then .okBeep (beep s) else .err s.fault)
  | .framebufferSnapshot => .next (s, .pixels (opFramebufferSnapshot s))

/-- A schedule: operations one after the other, with their results in order. -/
def runOps : List Operation → State → Host.Outcome (State × List Response) Fault Refusal
  | [], s => .next (s, [])
  | op :: ops, s =>
    match perform op s with
    | .next (t, r) =>
      match runOps ops t with
      | .next (u, rs) => .next (u, r :: rs)
      | .fault e => .fault e
      | .refused e => .refused e
    | .fault e => .fault e
    | .refused e => .refused e

end Sys2Proof.Machine
end

