-- ==== Sys2Proof/Safety.lean ====
section
/-! DEFINITION. The terms claims are made in: a machine with no fault latched, the invariant every operation keeps, the
frame of an instruction, what a sprite covers, and the spec's convention for a finished run. -/

namespace Sys2Proof.Machine

/-- No fault is latched; "every claim about a program takes `FAULT.cause = 0` as a premise" (60_exceptions.md R92). -/
abbrev State.NoFault (s : State) : Prop := s.fault.cause = .noFault

/-- The invariant of the machine: memory keeps its canonical form; SP never exceeds 16 (10_state.md R14); PC never
exceeds 0x10FE (10_state.md R12); every stack slot is at most 0x1000, and a slot in use at least 2 (40_control.md R50);
with no fault latched the record is all zero (10_state.md R20). -/
abbrev State.Inv (s : State) : Prop :=
  Memory.wf s.mem ∧ s.sp.toNat ≤ 16 ∧ s.pc.toNat ≤ 0x10FE ∧ (∀ k : Nibble, (s.slot k).toNat ≤ 0x1000) ∧
    (∀ k : Nibble, k.toNat < s.sp.toNat → 2 ≤ (s.slot k).toNat) ∧ (s.NoFault → s.fault = FaultRecord.clear)

/-- The pieces of state other than PC and the general registers. -/
inductive StatePart where
  | i | stack | sp | dt | st | key | fb | mem | fault | draws
  deriving DecidableEq, Repr

/-- A piece of state reads in `t` as it read in `s`: every slot, latch, pixel and byte of it. -/
def Unchanged (s t : State) : StatePart → Prop
  | .i => t.i = s.i
  | .stack => ∀ k, t.slot k = s.slot k
  | .sp => t.sp = s.sp
  | .dt => t.dt = s.dt
  | .st => t.st = s.st
  | .key => ∀ k, t.keyAt k = s.keyAt k
  | .fb => ∀ col row, t.pixel col row = s.pixel col row
  | .mem => ∀ a, memGet t.mem a = memGet s.mem a
  | .fault => t.fault = s.fault
  | .draws => t.draws = s.draws

/-- The frame from `s` to `t`: every general register is unchanged but those listed, and every other piece of state
but those listed; PC may change. -/
def Frame (regs : List Nibble) (parts : List StatePart) (s t : State) : Prop :=
  (∀ x, x ∉ regs → t.getV x = s.getV x) ∧ ∀ p, p ∉ parts → Unchanged s t p

/-- The pieces of state, besides PC and the general registers, that the rules of 40_control.md to 46_timer.md let an
instruction write when it raises no fault. -/
def instrParts : Instr → List StatePart
  | .ret => [.sp]
  | .call _ => [.stack, .sp]
  | .cls | .drwVxVyN _ _ _ => [.fb]
  | .ldINnn _ | .addIVx _ | .ldFVx _ => [.i]
  | .rndVxNn _ _ => [.draws]
  | .ldDtVx _ => [.dt]
  | .ldStVx _ => [.st]
  | .ldBVx _ | .ldMemVx _ => [.mem]
  | .nop | .jp _ | .seVxNn _ _ | .sneVxNn _ _ | .seVxVy _ _ | .sneVxVy _ _ | .ldVxNn _ _ | .addVxNn _ _
  | .ldVxVy _ _ | .orVxVy _ _ | .andVxVy _ _ | .xorVxVy _ _ | .addVxVy _ _ | .subVxVy _ _ | .shrVx _ _
  | .subnVxVy _ _ | .shlVx _ _ | .jpV0Nnn _ | .skpVx _ | .sknpVx _ | .ldVxDt _ | .ldVxK _ | .ldVxMem _ => []

/-- The general registers an instruction may write (10_state.md R24 and the rules of 42_alu.md to 46_timer.md). -/
def instrRegs : Instr → List Nibble
  | .ldVxNn x _ | .addVxNn x _ | .ldVxVy x _ | .orVxVy x _ | .andVxVy x _ | .xorVxVy x _ | .rndVxNn x _
  | .ldVxDt x | .ldVxK x => [x]
  | .addVxVy x _ | .subVxVy x _ | .shrVx x _ | .subnVxVy x _ | .shlVx x _ => [x, 15]
  | .drwVxVyN _ _ _ => [15]
  | .ldVxMem x => (List.range (x.toNat + 1)).map (BitVec.ofNat 4)
  | .nop | .cls | .ret | .jp _ | .call _ | .seVxNn _ _ | .sneVxNn _ _ | .seVxVy _ _ | .sneVxVy _ _ | .ldINnn _
  | .jpV0Nnn _ | .skpVx _ | .sknpVx _ | .ldDtVx _ | .ldStVx _ | .addIVx _ | .ldFVx _ | .ldBVx _ | .ldMemVx _ => []

/-- The instructions that write VF as a side effect (10_state.md R10, R24). -/
def writesFlag : Instr → Bool
  | .addVxVy _ _ | .subVxVy _ _ | .shrVx _ _ | .subnVxVy _ _ | .shlVx _ _ | .drwVxVyN _ _ _ => true
  | .nop | .cls | .ret | .jp _ | .call _ | .seVxNn _ _ | .sneVxNn _ _ | .seVxVy _ _ | .ldVxNn _ _ | .addVxNn _ _
  | .ldVxVy _ _ | .orVxVy _ _ | .andVxVy _ _ | .xorVxVy _ _ | .sneVxVy _ _ | .ldINnn _ | .jpV0Nnn _ | .rndVxNn _ _
  | .skpVx _ | .sknpVx _ | .ldVxDt _ | .ldVxK _ | .ldDtVx _ | .ldStVx _ | .addIVx _ | .ldFVx _ | .ldBVx _
  | .ldMemVx _ | .ldVxMem _ => false

/-- A sprite of `n` rows at I, drawn with its left edge at `V[x]` and its top at `V[y]`, covers the pixel at a column
and a row: a set bit of some sprite row falls on it, with wrap-around (44_display.md R79). -/
def SpriteCovers (s : State) (x y n : Nibble) (col : BitVec 6) (row : BitVec 5) : Prop :=
  ∃ r c, r < n.toNat ∧ c < 8 ∧ (memGet s.mem (s.i.toNat + r)).getLsbD (7 - c) = true ∧
    col.toNat = ((s.getV x).toNat + c) % 64 ∧ row.toNat = ((s.getV y).toNat + r) % 32

/-- The machine has finished at address `a`, by the spec's convention: a jump to itself, with no fault latched
(70_reset_and_hazards.md R116). -/
def Finished (a : Addr12) (s : State) : Prop :=
  s.NoFault ∧ s.pc.toNat = a.toNat ∧ a.toNat ≤ 0xFFE ∧ fetchWordAt s.mem s.pc.toNat = encode (.jp a)

end Sys2Proof.Machine
end

