-- ==== Sys2Proof/Certificates/Slice0/Obligations.lean ====
section
/-! DEFINITION. The statements for the provers. Each docstring names the rules of spec/ it formalises; "log entry" is a
file of notes/assumptions/. A fault is a next state with FAULT written (log entry 1). -/

open Sys2Proof Sys2Proof.Machine

/-! ### Encoding and decoding -/

/-- Decode and encode agree for every instruction, on words and on bytes (30_encoding.md R41, R42, R44). -/
def Obligations.DecodeOfEncodeIsTheInstruction : Prop :=
  ∀ i : Instr, decodeWord (encode i) = .ok i ∧
    ∀ rest : List Byte, decode (wordBytes (encode i) ++ rest) = .ok (i, rest)

/-- Every word has one meaning: the word of the instruction a word decodes to is that word, so no bit of it is dropped
(30_encoding.md R44, R45). -/
def Obligations.EncodeOfDecodeIsTheWord : Prop :=
  ∀ (op : Word) (i : Instr), decodeWord op = .ok i → encode i = op

/-- R44: a word selects the instruction whose mask and match it satisfies; the 35 pairs are disjoint. The decoder is
written from the prose table of R44 and the rows are those of spec/opcode_table.json. -/
def Obligations.DecodeSelectsByMaskAndMatch : Prop :=
  opcodeTable.length = 35 ∧
  ∀ op : Word,
    (∀ i, decodeWord op = .ok i → i.row ∈ opcodeTable ∧ op &&& i.row.mask = i.row.pattern) ∧
    (∀ r ∈ opcodeTable, op &&& r.mask = r.pattern → ∃ i, decodeWord op = .ok i ∧ i.row = r) ∧
    (∀ r ∈ opcodeTable, ∀ q ∈ opcodeTable, op &&& r.mask = r.pattern → op &&& q.mask = q.pattern → r = q)

/-- The words that select no instruction are the six patterns of 30_encoding.md R45, and are rejected by name. -/
def Obligations.UnimplementedWordsAreTheSixPatterns : Prop :=
  ∀ op : Word, decodeWord op = .error (.unimplementedOpcode op) ↔
    (op.toNat / 4096 = 0x0 ∧ op.toNat ≠ 0x0000 ∧ op.toNat ≠ 0x00E0 ∧ op.toNat ≠ 0x00EE) ∨
    (op.toNat / 4096 = 0x5 ∧ op.toNat % 16 ≠ 0) ∨
    (op.toNat / 4096 = 0x8 ∧ op.toNat % 16 ∈ [0x8, 0x9, 0xA, 0xB, 0xC, 0xD, 0xF]) ∨
    (op.toNat / 4096 = 0x9 ∧ op.toNat % 16 ≠ 0) ∨
    (op.toNat / 4096 = 0xE ∧ op.toNat % 256 ∉ [0x9E, 0xA1]) ∨
    (op.toNat / 4096 = 0xF ∧ op.toNat % 256 ∉ [0x07, 0x0A, 0x15, 0x18, 0x1E, 0x29, 0x33, 0x55, 0x65])

/-- A few words of the spec's examples, one a file of instruction rules, and what they stand for (sanity). -/
def Obligations.WordsOfTheExamplesDecode : Prop :=
  decodeWord 0x00EE = .ok .ret ∧ decodeWord 0x2208 = .ok (.call 0x208) ∧
  decodeWord 0x4A10 = .ok (.sneVxNn 0xA 0x10) ∧ decodeWord 0x81F6 = .ok (.shrVx 0x1 0xF) ∧
  decodeWord 0xF255 = .ok (.ldMemVx 0x2) ∧ decodeWord 0xD012 = .ok (.drwVxVyN 0x0 0x1 0x2) ∧
  decodeWord 0xE3A1 = .ok (.sknpVx 0x3) ∧ decodeWord 0xF115 = .ok (.ldDtVx 0x1)

/-! ### The step -/

/-- With no fault latched and PC at most 0xFFE, whatever its parity, a step reads the big-endian word at PC and is `exec`
of the instruction it decodes to (30_encoding.md R40, R48; decisions D2 and D11). -/
def Obligations.StepRunsTheDecodedInstruction : Prop :=
  ∀ (s : State) (op : Word) (i : Instr), s.NoFault → s.pc.toNat ≤ 0xFFE →
    op.toNat = 256 * (memGet s.mem s.pc.toNat).toNat + (memGet s.mem (s.pc.toNat + 1)).toNat →
    decodeWord op = .ok i → step s = exec i s

/-- The two faults before the execute phase, in their order (60_exceptions.md R88, R89; decisions D2, D3, D21): a fetch
with PC above 0xFFE whatever the bytes, and a word that selects no instruction. Nothing but FAULT changes. -/
def Obligations.StepFaultsBeforeExecute : Prop :=
  ∀ s : State, s.NoFault →
    (s.pc.toNat > 0xFFE → step s = .next { s with fault := ⟨.fetchOutOfBounds, 0x0000, s.pc⟩ }) ∧
    (∀ op : Word, s.pc.toNat ≤ 0xFFE →
      op.toNat = 256 * (memGet s.mem s.pc.toNat).toNat + (memGet s.mem (s.pc.toNat + 1)).toNat →
      decodeWord op = .error (.unimplementedOpcode op) →
      step s = .next { s with fault := ⟨.unimplementedOpcode, op, s.pc⟩ })

/-- On a faulted machine `tick`, `tick_timers`, `load_program` and `set_key` change nothing and answer the latched
record, `framebuffer_snapshot` changes nothing, and `reset` clears the latch (60_exceptions.md R92; decisions D2, D20). -/
def Obligations.FaultedMachineChangesNothing : Prop :=
  ∀ s : State, ¬ s.NoFault →
    step s = .next s ∧ perform .tick s = .next (s, .err s.fault) ∧ perform .tickTimers s = .next (s, .err s.fault) ∧
    (∀ bytes, perform (.loadProgram bytes) s = .next (s, .err s.fault)) ∧
    (∀ k b, perform (.setKey k b) s = .next (s, .err s.fault)) ∧
    (∃ p, perform .framebufferSnapshot s = .next (s, .pixels p)) ∧
    (∃ t, perform .reset s = .next (t, .ok) ∧ t.NoFault)

/-- Faults are precise, for every instruction: a step that latches a fault changes nothing but the record, PC included,
and asks for no entropy byte (60_exceptions.md R90; decision D2). -/
def Obligations.FaultsArePrecise : Prop :=
  ∀ s t : State, s.NoFault → step s = .next t → ¬ t.NoFault → t = { s with fault := t.fault }

/-- "No other condition faults" (60_exceptions.md R88, R89; decisions D2, D3, D8, D9): where an instruction changes the
fault record, it is one of the execute-phase rows of R88, under its condition, and records the word and address of the
row. -/
def Obligations.ExecuteFaultsAreExactlyTheTable : Prop :=
  ∀ (i : Instr) (s t : State), exec i s = .next t → t.fault ≠ s.fault →
    t = { s with fault := t.fault } ∧ t.fault.opcode = encode i ∧
    ((∃ nnn, i = .call nnn ∧ s.sp = 16 ∧ t.fault.cause = .stackOverflow ∧ t.fault.addr = s.pc) ∨
     (i = .ret ∧ s.sp = 0 ∧ t.fault.cause = .stackUnderflow ∧ t.fault.addr = s.pc) ∨
     (((∃ x y n, i = .drwVxVyN x y n ∧ 0 < n.toNat ∧ s.i.toNat + n.toNat - 1 > 0xFFF) ∨
       (∃ x, i = .ldBVx x ∧ s.i.toNat + 2 > 0xFFF) ∨
       (∃ x, i = .ldMemVx x ∧ s.i.toNat + x.toNat > 0xFFF) ∨
       (∃ x, i = .ldVxMem x ∧ s.i.toNat + x.toNat > 0xFFF)) ∧
      t.fault.cause = .memAddrOutOfBounds ∧ t.fault.addr.toNat = max s.i.toNat 0x1000) ∨
     (∃ x, (i = .skpVx x ∨ i = .sknpVx x) ∧ (s.getV x).toNat > 15 ∧ t.fault.cause = .keyIndexOutOfRange ∧
      t.fault.addr = s.pc))

/-- A call on a full stack and a return on an empty one fault and change nothing else (40_control.md R50, R52;
60_exceptions.md R88; decision D2). -/
def Obligations.FullAndEmptyStackFault : Prop :=
  ∀ (s : State) (nnn : Addr12),
    (s.sp = 16 → exec (.call nnn) s = .next { s with fault := ⟨.stackOverflow, encode (.call nnn), s.pc⟩ }) ∧
    (s.sp = 0 → exec .ret s = .next { s with fault := ⟨.stackUnderflow, 0x00EE, s.pc⟩ })

/-- The model's own stop (log entry 3): with SP from 17 to 31, values that "are never reached" (10_state.md R14), CALL and
RET stop the model. -/
def Obligations.StackPointerAboveSixteenStops : Prop :=
  ∀ (s : State) (nnn : Addr12), s.sp.toNat > 16 →
    exec (.call nnn) s = .fault .stackPointerOutOfRange ∧ exec .ret s = .fault .stackPointerOutOfRange

/-- A transfer whose last byte lies above 0xFFF faults, records the lowest address outside memory, and moves no byte
(20_memory.md R31, R32; decisions D2, D3, D9). -/
def Obligations.TransfersOutsideMemoryFault : Prop :=
  ∀ (s : State) (x y n : Nibble) (a : Word), a.toNat = max s.i.toNat 0x1000 →
    (s.i.toNat + 2 > 0xFFF →
      exec (.ldBVx x) s = .next { s with fault := ⟨.memAddrOutOfBounds, encode (.ldBVx x), a⟩ }) ∧
    (s.i.toNat + x.toNat > 0xFFF →
      exec (.ldMemVx x) s = .next { s with fault := ⟨.memAddrOutOfBounds, encode (.ldMemVx x), a⟩ } ∧
      exec (.ldVxMem x) s = .next { s with fault := ⟨.memAddrOutOfBounds, encode (.ldVxMem x), a⟩ }) ∧
    (0 < n.toNat → s.i.toNat + n.toNat - 1 > 0xFFF →
      exec (.drwVxVyN x y n) s = .next { s with fault := ⟨.memAddrOutOfBounds, encode (.drwVxVyN x y n), a⟩ })

/-- A key number above 15 faults in both key skips and is not masked (45_keypad.md R81, R82; decisions D2, D8). -/
def Obligations.KeyNumberAboveFifteenFaults : Prop :=
  ∀ (s : State) (x : Nibble), (s.getV x).toNat > 15 →
    exec (.skpVx x) s = .next { s with fault := ⟨.keyIndexOutOfRange, encode (.skpVx x), s.pc⟩ } ∧
    exec (.sknpVx x) s = .next { s with fault := ⟨.keyIndexOutOfRange, encode (.sknpVx x), s.pc⟩ }

/-! ### Control transfer -/

/-- R49: the no-op leaves PC at `a + 2` and changes nothing else; only the word 0x0000 is a no-op. -/
def Obligations.NopOnlyAdvances : Prop :=
  (∀ s : State, exec .nop s = .next { s with pc := s.pc + 2 }) ∧
  ∀ op : Word, decodeWord op = .ok .nop ↔ op = 0x0000

/-- R51: a jump sets PC to `nnn`, any value, and changes nothing else; a jump to itself changes nothing at all. -/
def Obligations.JumpSetsPc : Prop :=
  ∀ (s : State) (nnn : Addr12), ∃ t, exec (.jp nnn) s = .next t ∧ t.pc.toNat = nnn.toNat ∧ Frame [] [] s t ∧
    (s.pc.toNat = nnn.toNat → t = s)

/-- R53: PC gets `V[0] + nnn`, unreduced and never wrapping, and nothing else changes. -/
def Obligations.JumpByRegisterZeroAddsIt : Prop :=
  ∀ (s : State) (nnn : Addr12), ∃ t, exec (.jpV0Nnn nnn) s = .next t ∧
    t.pc.toNat = (s.getV 0).toNat + nnn.toNat ∧ t.pc.toNat ≤ 0x10FE ∧ Frame [] [] s t

/-- A call with SP below 16 writes the address after it into slot SP, adds 1 to SP and jumps (40_control.md R52;
10_state.md R13, R14; decision D5). -/
def Obligations.CallPushesTheReturnAddress : Prop :=
  ∀ (s : State) (nnn : Addr12), s.sp.toNat < 16 → ∃ t, exec (.call nnn) s = .next t ∧
    t.pc.toNat = nnn.toNat ∧ t.sp.toNat = s.sp.toNat + 1 ∧ Frame [] [.stack, .sp] s t ∧
    ∀ k : Nibble, t.slot k = if k.toNat = s.sp.toNat then s.pc + 2 else s.slot k

/-- A return with SP from 1 to 16 subtracts 1 from SP and jumps to the slot it then names, whole; the slot keeps its
value (40_control.md R50; 10_state.md R13, R14; decision D5). -/
def Obligations.ReturnPopsTheAddress : Prop :=
  ∀ (s : State) (k : Nibble), s.sp.toNat = k.toNat + 1 → ∃ t, exec .ret s = .next t ∧
    t.pc = s.slot k ∧ t.sp.toNat = k.toNat ∧ Frame [] [.sp] s t

/-- A return resumes at the instruction after its call, whatever ran between, if that left SP and the slots in use as the
call left them (40_control.md R50, R52; decision D5). -/
def Obligations.ReturnResumesAfterTheCall : Prop :=
  ∀ (s : State) (nnn : Addr12), s.sp.toNat < 16 → ∃ t, exec (.call nnn) s = .next t ∧
    ∀ w : State, w.sp = t.sp → (∀ k : Nibble, k.toNat < t.sp.toNat → w.slot k = t.slot k) →
      ∃ u, exec .ret w = .next u ∧ u.pc = s.pc + 2 ∧ u.sp = s.sp ∧
        ∀ k : Nibble, k.toNat < s.sp.toNat → u.slot k = s.slot k

/-! ### Skips -/

/-- R55 to R58: PC ends at `a + 4` when the condition holds and at `a + 2` when it does not; nothing else changes. -/
def Obligations.SkipsCompareRegisters : Prop :=
  ∀ (s : State) (x y : Nibble) (nn : Byte),
    (∃ t, exec (.seVxNn x nn) s = .next t ∧ Frame [] [] s t ∧
      t.pc = if (s.getV x).toNat = nn.toNat then s.pc + 4 else s.pc + 2) ∧
    (∃ t, exec (.sneVxNn x nn) s = .next t ∧ Frame [] [] s t ∧
      t.pc = if (s.getV x).toNat = nn.toNat then s.pc + 2 else s.pc + 4) ∧
    (∃ t, exec (.seVxVy x y) s = .next t ∧ Frame [] [] s t ∧
      t.pc = if (s.getV x).toNat = (s.getV y).toNat then s.pc + 4 else s.pc + 2) ∧
    (∃ t, exec (.sneVxVy x y) s = .next t ∧ Frame [] [] s t ∧
      t.pc = if (s.getV x).toNat = (s.getV y).toNat then s.pc + 2 else s.pc + 4)

/-! ### Registers and arithmetic -/

/-- R59 and R61: the register receives the immediate or the other register; VF too when it is the destination. -/
def Obligations.LoadsSetTheRegister : Prop :=
  ∀ (s : State) (x y : Nibble) (nn : Byte),
    (∃ t, exec (.ldVxNn x nn) s = .next t ∧ t.pc = s.pc + 2 ∧ t.getV x = nn ∧ Frame [x] [] s t) ∧
    (∃ t, exec (.ldVxVy x y) s = .next t ∧ t.pc = s.pc + 2 ∧ t.getV x = s.getV y ∧ Frame [x] [] s t)

/-- R60: the sum modulo 256, and no flag. -/
def Obligations.AddImmediateWrapsWithoutFlag : Prop :=
  ∀ (s : State) (x : Nibble) (nn : Byte), ∃ t, exec (.addVxNn x nn) s = .next t ∧ t.pc = s.pc + 2 ∧
    (t.getV x).toNat = ((s.getV x).toNat + nn.toNat) % 256 ∧ Frame [x] [] s t

/-- R62 to R64: OR, AND and XOR bit by bit, and no flag. -/
def Obligations.LogicIsBitwiseWithoutFlag : Prop :=
  ∀ (s : State) (x y : Nibble),
    (∃ t, exec (.orVxVy x y) s = .next t ∧ t.pc = s.pc + 2 ∧ Frame [x] [] s t ∧
      ∀ j, (t.getV x).getLsbD j = ((s.getV x).getLsbD j || (s.getV y).getLsbD j)) ∧
    (∃ t, exec (.andVxVy x y) s = .next t ∧ t.pc = s.pc + 2 ∧ Frame [x] [] s t ∧
      ∀ j, (t.getV x).getLsbD j = ((s.getV x).getLsbD j && (s.getV y).getLsbD j)) ∧
    (∃ t, exec (.xorVxVy x y) s = .next t ∧ t.pc = s.pc + 2 ∧ Frame [x] [] s t ∧
      ∀ j, (t.getV x).getLsbD j = ((s.getV x).getLsbD j != (s.getV y).getLsbD j))

/-- `8xy4` (42_alu.md R65): the sum modulo 256 and, in VF, whether it exceeded 255. That VF holds the flag also where
`x = 15` is the spec's decision D6 (log entry 8). -/
def Obligations.AddSetsCarry : Prop :=
  ∀ (s : State) (x y : Nibble), ∃ t, exec (.addVxVy x y) s = .next t ∧ t.pc = s.pc + 2 ∧ Frame [x, 15] [] s t ∧
    (x ≠ 15 → (t.getV x).toNat = ((s.getV x).toNat + (s.getV y).toNat) % 256) ∧
    t.getV 15 = if (s.getV x).toNat + (s.getV y).toNat > 255 then 1 else 0

/-- `8xy5` (42_alu.md R66): `Vx - Vy` modulo 256 and, in VF, whether there was no borrow. That VF holds the flag also
where `x = 15` is the spec's decision D6, and the operand order its decision D18 (log entry 8). -/
def Obligations.SubSetsNoBorrow : Prop :=
  ∀ (s : State) (x y : Nibble), ∃ t, exec (.subVxVy x y) s = .next t ∧ t.pc = s.pc + 2 ∧ Frame [x, 15] [] s t ∧
    (x ≠ 15 → (t.getV x).toNat = ((s.getV x).toNat + 256 - (s.getV y).toNat) % 256) ∧
    t.getV 15 = if (s.getV x).toNat ≥ (s.getV y).toNat then 1 else 0

/-- `8xy7` (42_alu.md R68): `Vy - Vx` modulo 256 and, in VF, whether there was no borrow. That VF holds the flag also
where `x = 15` is the spec's decision D6, and the operand order its decision D18 (log entry 8). -/
def Obligations.SubnSetsNoBorrow : Prop :=
  ∀ (s : State) (x y : Nibble), ∃ t, exec (.subnVxVy x y) s = .next t ∧ t.pc = s.pc + 2 ∧ Frame [x, 15] [] s t ∧
    (x ≠ 15 → (t.getV x).toNat = ((s.getV y).toNat + 256 - (s.getV x).toNat) % 256) ∧
    t.getV 15 = if (s.getV y).toNat ≥ (s.getV x).toNat then 1 else 0

/-- `8xy6` and `8xyE` (42_alu.md R67, R69): Vx halved or doubled modulo 256, VF the bit shifted out; `y` is ignored. That
VF holds the flag also where `x = 15` is the spec's decision D6 (log entry 8). -/
def Obligations.ShiftsSetTheDroppedBit : Prop :=
  ∀ (s : State) (x y : Nibble),
    (∃ t, exec (.shrVx x y) s = .next t ∧ t.pc = s.pc + 2 ∧ Frame [x, 15] [] s t ∧
      (x ≠ 15 → (t.getV x).toNat = (s.getV x).toNat / 2) ∧ (t.getV 15).toNat = (s.getV x).toNat % 2) ∧
    (∃ t, exec (.shlVx x y) s = .next t ∧ t.pc = s.pc + 2 ∧ Frame [x, 15] [] s t ∧
      (x ≠ 15 → (t.getV x).toNat = 2 * (s.getV x).toNat % 256) ∧ (t.getV 15).toNat = (s.getV x).toNat / 128)

/-- `Cxnn` (42_alu.md R70; decision D15): Vx gets a byte of the entropy source, a free value (log entry 4), masked with
`nn`; one byte is requested. It says nothing of which byte. -/
def Obligations.RandomByteIsMasked : Prop :=
  ∀ (s : State) (x : Nibble) (nn : Byte), ∃ t, exec (.rndVxNn x nn) s = .next t ∧ t.pc = s.pc + 2 ∧
    t.getV x = Config.entropy s.draws &&& nn ∧ t.getV x &&& ~~~ nn = 0 ∧ t.draws = s.draws + 1 ∧
    Frame [x] [.draws] s t

/-! ### The address register and memory -/

/-- R72 to R74: I gets `nnn`, `I + Vx` modulo 65536, or five times the whole byte Vx; no flag, no fault. -/
def Obligations.AddressRegisterWrites : Prop :=
  ∀ (s : State) (x : Nibble) (nnn : Addr12),
    (∃ t, exec (.ldINnn nnn) s = .next t ∧ t.pc = s.pc + 2 ∧ t.i.toNat = nnn.toNat ∧ Frame [] [.i] s t) ∧
    (∃ t, exec (.addIVx x) s = .next t ∧ t.pc = s.pc + 2 ∧
      t.i.toNat = (s.i.toNat + (s.getV x).toNat) % 65536 ∧ Frame [] [.i] s t) ∧
    (∃ t, exec (.ldFVx x) s = .next t ∧ t.pc = s.pc + 2 ∧ t.i.toNat = 5 * (s.getV x).toNat ∧ Frame [] [.i] s t)

/-- `Fx33` (43_index_memory.md R75; decisions D9, D10): the three decimal digits of Vx at I, I+1 and I+2, one a byte; no
other byte and no other state changes, I included. -/
def Obligations.BcdStoresThreeDigits : Prop :=
  ∀ (s : State) (x : Nibble), s.i.toNat + 2 ≤ 0xFFF → ∃ t, exec (.ldBVx x) s = .next t ∧ t.pc = s.pc + 2 ∧
    (∃ h d o : Nat, h ≤ 2 ∧ d ≤ 9 ∧ o ≤ 9 ∧ 100 * h + 10 * d + o = (s.getV x).toNat ∧
      (memGet t.mem s.i.toNat).toNat = h ∧ (memGet t.mem (s.i.toNat + 1)).toNat = d ∧
      (memGet t.mem (s.i.toNat + 2)).toNat = o) ∧
    (∀ a, a < s.i.toNat ∨ s.i.toNat + 2 < a → memGet t.mem a = memGet s.mem a) ∧ Frame [] [.mem] s t

/-- `Fx55` (43_index_memory.md R76; decisions D9, D10): register `k` at `I + k` for `k` from 0 to `x`; no other byte and
no other state changes, I included. -/
def Obligations.BlockStoreCopiesRegisters : Prop :=
  ∀ (s : State) (x : Nibble), s.i.toNat + x.toNat ≤ 0xFFF → ∃ t, exec (.ldMemVx x) s = .next t ∧ t.pc = s.pc + 2 ∧
    (∀ k : Nibble, k.toNat ≤ x.toNat → memGet t.mem (s.i.toNat + k.toNat) = s.getV k) ∧
    (∀ a, a < s.i.toNat ∨ s.i.toNat + x.toNat < a → memGet t.mem a = memGet s.mem a) ∧ Frame [] [.mem] s t

/-- `Fx65` (43_index_memory.md R77; decisions D9, D10): the byte at `I + k` into register `k` for `k` from 0 to `x`; the
registers above `x`, I, memory and all other state keep their values. -/
def Obligations.BlockLoadFillsRegisters : Prop :=
  ∀ (s : State) (x : Nibble), s.i.toNat + x.toNat ≤ 0xFFF → ∃ t, exec (.ldVxMem x) s = .next t ∧ t.pc = s.pc + 2 ∧
    (∀ k : Nibble, t.getV k = if k.toNat ≤ x.toNat then memGet s.mem (s.i.toNat + k.toNat) else s.getV k) ∧
    ∀ p, Unchanged s t p

/-- A store over the next instruction is seen by the next fetch, the byte of V0 as the high byte of the opcode
(20_memory.md R28, R36; decision D12). -/
def Obligations.StoreIsSeenByTheNextFetch : Prop :=
  ∀ (s : State) (x : Nibble), s.NoFault → 1 ≤ x.toNat → s.i.toNat = s.pc.toNat + 2 →
    s.i.toNat + x.toNat ≤ 0xFFF →
    ∃ t, exec (.ldMemVx x) s = .next t ∧ ∀ i, decodeWord (joinBytes (s.getV 0) (s.getV 1)) = .ok i → step t = exec i t

/-! ### Display -/

/-- R78: every pixel is off and nothing else changes. -/
def Obligations.ClearTurnsEveryPixelOff : Prop :=
  ∀ s : State, ∃ t, exec .cls s = .next t ∧ t.pc = s.pc + 2 ∧ (∀ col row, t.pixel col row = false) ∧ Frame [] [.fb] s t

/-- `Dxyn` (44_display.md R79; decisions D6, D9, D10): each covered pixel flips, with wrap-around, and no other; VF says
whether a covered pixel was on. With `n = 0` no pixel is covered, whatever I holds. -/
def Obligations.DrawXorsTheSprite : Prop :=
  ∀ (s : State) (x y n : Nibble), n.toNat = 0 ∨ s.i.toNat + n.toNat - 1 ≤ 0xFFF →
    ∃ t, exec (.drwVxVyN x y n) s = .next t ∧ t.pc = s.pc + 2 ∧ Frame [15] [.fb] s t ∧
      (∀ col row, (SpriteCovers s x y n col row → t.pixel col row = !s.pixel col row) ∧
        (¬ SpriteCovers s x y n col row → t.pixel col row = s.pixel col row)) ∧
      ((∃ col row, SpriteCovers s x y n col row ∧ s.pixel col row = true) → t.getV 15 = 1) ∧
      ((∀ col row, SpriteCovers s x y n col row → s.pixel col row = false) → t.getV 15 = 0)

/-- The involution of the XOR-sprite unit (44_display.md R80, 90_conflicts.md C5; decisions D6, D9): the same draw twice
restores the framebuffer, and the second flag says whether a covered pixel was off before the first. VF as a coordinate
(`x = 15` or `y = 15`) is excluded because the first draw writes it. -/
def Obligations.DoubleDrawRestoresTheFramebuffer : Prop :=
  ∀ (s : State) (x y n : Nibble), x ≠ 15 → y ≠ 15 → n.toNat = 0 ∨ s.i.toNat + n.toNat - 1 ≤ 0xFFF →
    ∃ t u, exec (.drwVxVyN x y n) s = .next t ∧ exec (.drwVxVyN x y n) t = .next u ∧ u.fb = s.fb ∧
      ((∃ col row, SpriteCovers s x y n col row ∧ s.pixel col row = false) → u.getV 15 = 1) ∧
      ((∀ col row, SpriteCovers s x y n col row → s.pixel col row = true) → u.getV 15 = 0)

/-- The number of pixels a draw changes is the number of set bits in its sprite bytes (44_display.md R80 (c), derived there
from R79). -/
def Obligations.DrawFlipsOnePixelPerSetBit : Prop :=
  ∀ (s t : State) (x y n : Nibble), n.toNat = 0 ∨ s.i.toNat + n.toNat - 1 ≤ 0xFFF →
    exec (.drwVxVyN x y n) s = .next t →
    ((List.range 2048).filter (fun k =>
        t.pixel (BitVec.ofNat 6 (k % 64)) (BitVec.ofNat 5 (k / 64)) !=
          s.pixel (BitVec.ofNat 6 (k % 64)) (BitVec.ofNat 5 (k / 64)))).length =
      ((List.range n.toNat).map (fun r =>
        ((List.range 8).filter (fun b => (memGet s.mem (s.i.toNat + r)).getLsbD b)).length)).sum

/-! ### Keypad -/

/-- `Ex9E` and `ExA1` with a key number up to 15 (45_keypad.md R81, R82; decision D8): a skip on the level of the latch, and
nothing else changes. -/
def Obligations.KeySkipsTestTheLatch : Prop :=
  ∀ (s : State) (x k : Nibble), (s.getV x).toNat = k.toNat →
    (∃ t, exec (.skpVx x) s = .next t ∧ Frame [] [] s t ∧ t.pc = if s.keyAt k = true then s.pc + 4 else s.pc + 2) ∧
    (∃ t, exec (.sknpVx x) s = .next t ∧ Frame [] [] s t ∧ t.pc = if s.keyAt k = true then s.pc + 2 else s.pc + 4)

/-- `Fx0A` (45_keypad.md R83): with a key pressed Vx gets the least one and PC advances; with none PC stays on the
instruction and Vx gets 0x00, the model's value `true` of FX0A_CLOBBER_VX (decision D7, log entry 6), or keeps its value
under the other value of the parameter. -/
def Obligations.KeyWaitTakesTheLeastKey : Prop :=
  ∀ (s : State) (x : Nibble),
    (∀ k : Nibble, s.keyAt k = true → (∀ j : Nibble, j.toNat < k.toNat → s.keyAt j = false) →
      (∃ t, exec (.ldVxK x) s = .next t ∧ t.pc = s.pc + 2 ∧ (t.getV x).toNat = k.toNat ∧ Frame [x] [] s t) ∧
      keyWait false x s = exec (.ldVxK x) s) ∧
    ((∀ k, s.keyAt k = false) →
      (∃ t, exec (.ldVxK x) s = .next t ∧ t.pc = s.pc ∧ t.getV x = 0x00 ∧ Frame [x] [] s t) ∧
      keyWait false x s = .next s)

/-- The net effect of a key wait (45_keypad.md R83, 70_reset_and_hazards.md R118): any number of ticks with no key pressed
leaves PC on the instruction and changes nothing but Vx; then one tick with a key pressed consumes it. -/
def Obligations.KeyWaitHoldsUntilAKeyIsPressed : Prop :=
  ∀ (m : Nat) (s : State) (x : Nibble), s.NoFault → s.pc.toNat ≤ 0xFFE →
    fetchWordAt s.mem s.pc.toNat = encode (.ldVxK x) → (∀ k, s.keyAt k = false) →
    ∃ t : State, Host.Core.run Sys2Proof.core m s = .next t ∧ t.pc = s.pc ∧ Frame [x] [] s t ∧
      ∀ (w : State) (k : Nibble), w = { t with key := w.key } → w.keyAt k = true →
        (∀ j : Nibble, j.toNat < k.toNat → w.keyAt j = false) →
        ∃ u, step w = .next u ∧ u.pc = s.pc + 2 ∧ (u.getV x).toNat = k.toNat

/-! ### Timers -/

/-- R84: Vx gets DT, and nothing else changes. -/
def Obligations.ReadTimerLoadsTheRegister : Prop :=
  ∀ (s : State) (x : Nibble), ∃ t, exec (.ldVxDt x) s = .next t ∧ t.pc = s.pc + 2 ∧ t.getV x = s.dt ∧ Frame [x] [] s t

/-- R85: DT gets Vx, and after `m` timer ticks with no other write it is `max(v - m, 0)`. -/
def Obligations.DelayTimerIsSetAndCountsDown : Prop :=
  ∀ (s : State) (x : Nibble), ∃ t, exec (.ldDtVx x) s = .next t ∧ t.pc = s.pc + 2 ∧ t.dt = s.getV x ∧
    Frame [] [.dt] s t ∧ (s.NoFault → ∀ m, (opTickTimers^[m] t).dt.toNat = (s.getV x).toNat - m)

/-- `Fx18` (46_timer.md R86, 60_exceptions.md R98; decision D17): ST gets `v = Vx`; of the timer ticks that follow it the
`v`-th, and no other, reports the sound notification; none follows when `v = 0`. -/
def Obligations.SoundIsReportedOnTheLastCount : Prop :=
  ∀ (s : State) (x : Nibble), ∃ t, exec (.ldStVx x) s = .next t ∧ t.pc = s.pc + 2 ∧ t.st = s.getV x ∧
    Frame [] [.st] s t ∧
    (s.NoFault → ∀ m, ∃ u, perform .tickTimers (opTickTimers^[m] t) =
      .next (u, .okBeep (decide ((s.getV x).toNat = m + 1))))

/-! ### Host operations -/

/-- `tick_timers` with no fault latched (60_exceptions.md R96, R98; decisions D2, D17): each timer counts down by 1 and is
clamped at 0; the notification says ST was 1; nothing else changes, PC included. -/
def Obligations.TimerTickCountsDownAndReports : Prop :=
  ∀ s : State, s.NoFault → ∃ t b, perform .tickTimers s = .next (t, .okBeep b) ∧
    t.dt.toNat = s.dt.toNat - 1 ∧ t.st.toNat = s.st.toNat - 1 ∧ (b = true ↔ s.st.toNat = 1) ∧ t.pc = s.pc ∧
    Frame [] [.dt, .st] s t

/-- `set_key` with no fault latched (60_exceptions.md R99; decisions D2, D4, D24): one latch is written and nothing else;
an index above 15 is never wrapped but faults (log entry 7). -/
def Obligations.SetKeyWritesOneLatch : Prop :=
  ∀ (s : State) (index : Nat) (pressed : Bool), s.NoFault →
    (index ≤ 15 → ∃ t, perform (.setKey index pressed) s = .next (t, .ok) ∧ t.pc = s.pc ∧ Frame [] [.key] s t ∧
      ∀ k : Nibble, t.keyAt k = if k.toNat = index then pressed else s.keyAt k) ∧
    (15 < index → ∃ f : FaultRecord, f.cause = .hostKeyIndexOutOfRange ∧ f.opcode = 0 ∧
      f.addr.toNat = min index 0xFFFF ∧
      perform (.setKey index pressed) s = .next ({ s with fault := f }, .err f))

/-- `load_program` with no fault latched (60_exceptions.md R101; decisions D2, D4, D23): the bytes from 0x200 upward, every
other byte as it was, nothing but memory written; too many bytes are refused whole. -/
def Obligations.LoadProgramCopiesAllOrNothing : Prop :=
  ∀ (s : State) (bytes : List Byte), s.NoFault →
    (bytes.length ≤ 3584 → ∃ t, perform (.loadProgram bytes) s = .next (t, .ok) ∧ t.pc = s.pc ∧ Frame [] [.mem] s t ∧
      (∀ k, k < bytes.length → some (memGet t.mem (0x200 + k)) = bytes[k]?) ∧
      (∀ a, a < 0x200 ∨ 0x200 + bytes.length ≤ a → memGet t.mem a = memGet s.mem a)) ∧
    (3584 < bytes.length → perform (.loadProgram bytes) s =
      .next ({ s with fault := ⟨.programTooLarge, 0x0000, 0x1000⟩ }, .err ⟨.programTooLarge, 0x0000, 0x1000⟩))

/-- `reset` and `new` (10_state.md R22, 70_reset_and_hazards.md R107, R108; decision D22), from every state, faulted or not:
every piece of state at its reset value, the font table (the parameter FONT, log entry 5) installed, and a second reset
changes nothing. The model's own count of entropy requests goes on (log entry 4). -/
def Obligations.ResetRestoresTheResetState : Prop :=
  ∀ s : State, ∃ t, perform .reset s = .next (t, .ok) ∧ perform .new s = .next (t, .ok) ∧
    t = { State.reset with draws := s.draws } ∧ (∀ x, t.getV x = 0) ∧ t.i = 0 ∧ t.pc = 0x200 ∧
    (∀ k, t.slot k = 0) ∧ t.sp = 0 ∧ t.dt = 0 ∧ t.st = 0 ∧ (∀ k, t.keyAt k = false) ∧
    (∀ col row, t.pixel col row = false) ∧ (∀ a, a < 80 → some (memGet t.mem a) = fontTable[a]?) ∧
    (∀ a, 80 ≤ a → memGet t.mem a = 0) ∧ t.fault = ⟨.noFault, 0, 0⟩ ∧ perform .reset t = .next (t, .ok)

/-- `framebuffer_snapshot` (60_exceptions.md R100; decision D20): the 2048 pixels, pixel (col, row) at `col + 64*row`, on
every machine, with no change of state. -/
def Obligations.SnapshotIsRowMajor : Prop :=
  ∀ s : State, ∃ p, perform .framebufferSnapshot s = .next (s, .pixels p) ∧ p.length = 2048 ∧
    ∀ (col : BitVec 6) (row : BitVec 5), p[col.toNat + 64 * row.toNat]? = some (s.pixel col row)

/-! ### The whole machine -/

/-- Who writes what, for every instruction (10_state.md R11, R13 to R18): pixels only by `00E0` and `Dxyn`, memory only by
`Fx33` and `Fx55`, I, the stack, SP and the timers only by their instructions, the key latches by none (`instrParts`); and
the fault record apart, whose changes are the statement ExecuteFaultsAreExactlyTheTable. -/
def Obligations.InstructionsWriteOnlyTheirState : Prop :=
  ∀ (i : Instr) (s t : State), exec i s = .next t → ∀ p, p ∉ instrParts i → p ≠ .fault → Unchanged s t p

/-- The register writers and the flag writers are the table of 10_state.md R24: an instruction changes no other register, VF
included, and a flag written as a side effect is 0x00 or 0x01 (decision D6 where `x = 15`, log entry 8). -/
def Obligations.RegisterAndFlagWritersAreTheTable : Prop :=
  ∀ (i : Instr) (s t : State), exec i s = .next t →
    (∀ x, x ∉ instrRegs i → t.getV x = s.getV x) ∧
    (writesFlag i = true → s.NoFault → t.NoFault → t.getV 15 = 0x00 ∨ t.getV 15 = 0x01)

/-- The invariant holds after reset (10_state.md R22). -/
def Obligations.InvariantHoldsAtReset : Prop := State.reset.Inv

/-- Every step keeps the invariant, from every state that has it: memory keeps its canonical form, SP never exceeds 16
(10_state.md R14), PC never exceeds 0x10FE (10_state.md R12), stack slots stay addresses PC once had (40_control.md R50), and
the record is zero while no fault is latched (10_state.md R20). -/
def Obligations.StepKeepsTheInvariant : Prop :=
  ∀ s t : State, s.Inv → step s = .next t → t.Inv

/-- Every schedule of the seven operations, from every state with the invariant, runs to its end: no operation is without a
next state, each answers a result, and the invariant is kept (60_exceptions.md R95; 93_implementation_defined.md, "No behaviour
in this machine is treated as `stuck`"). The model's own stop of log entry 3 is therefore never reached. -/
def Obligations.EveryScheduleCompletes : Prop :=
  ∀ (ops : List Operation) (s : State), s.Inv →
    ∃ t rs, runOps ops s = .next (t, rs) ∧ rs.length = ops.length ∧ t.Inv

/-- Equal memories are equal data: two memories in canonical form that read the same at every address are the same list
(10_state.md R19; the form is the model's, log entry 9). -/
def Obligations.CanonicalMemoriesWithEqualBytesAreEqual : Prop :=
  ∀ m n : Memory, Memory.wf m → Memory.wf n → (∀ a, memGet m a = memGet n a) → m = n

/-- A finished machine, by the spec's convention (70_reset_and_hazards.md R116; decision D19), is a fixed point of every later
tick, and a timer tick or a key change leaves it finished. -/
def Obligations.SelfJumpIsAFixedPoint : Prop :=
  ∀ (a : Addr12) (s : State), Finished a s →
    (∀ m, Host.Core.run Sys2Proof.core m s = .next s) ∧ Finished a (opTickTimers s) ∧
    ∀ k b, k ≤ 15 → Finished a (opSetKey k b s)

/-- No instruction reads ST (10_state.md R16): two runs of ticks from states that differ only in ST answer the same, and stay
the same but for ST. -/
def Obligations.NoInstructionReadsTheSoundTimer : Prop :=
  ∀ (m : Nat) (s t : State) (b : Byte), Host.Core.run Sys2Proof.core m s = .next t →
    ∃ c, Host.Core.run Sys2Proof.core m (s.setSt b) = .next (t.setSt c)
end

