-- ==== Sys2Proof/Laws/Encoding.lean ====
section
/-! SUPPORT. The fields of a word and the words of the formats in plain arithmetic and bit by bit, so that no later proof
unfolds a concatenation or a slice. -/

namespace Sys2Proof

/-! ### Words built from fields, as numbers -/

theorem toNat_append_eq {m n : Nat} (a : BitVec m) (b : BitVec n) :
    (a ++ b).toNat = a.toNat * 2 ^ n + b.toNat := by
  rw [BitVec.toNat_append, Nat.shiftLeft_eq, Nat.mul_comm, ← Nat.two_pow_add_eq_or_of_lt b.isLt]

theorem joinBytes_toNat (hi lo : Byte) : (joinBytes hi lo).toNat = hi.toNat * 256 + lo.toNat :=
  toNat_append_eq hi lo

theorem formatNNN_toNat (d : Nibble) (nnn : Addr12) : (formatNNN d nnn).toNat = d.toNat * 4096 + nnn.toNat :=
  toNat_append_eq d nnn

theorem formatXNN_toNat (d x : Nibble) (nn : Byte) :
    (formatXNN d x nn).toNat = d.toNat * 4096 + x.toNat * 256 + nn.toNat := by
  have h1 : (formatXNN d x nn).toNat = (d ++ x).toNat * 2 ^ 8 + nn.toNat := toNat_append_eq (d ++ x) nn
  rw [h1, toNat_append_eq]; omega

theorem formatXYN_toNat (d x y n : Nibble) :
    (formatXYN d x y n).toNat = d.toNat * 4096 + x.toNat * 256 + y.toNat * 16 + n.toNat := by
  have h1 : (formatXYN d x y n).toNat = (d ++ x ++ y).toNat * 2 ^ 4 + n.toNat := toNat_append_eq (d ++ x ++ y) n
  rw [h1, toNat_append_eq, toNat_append_eq]; omega

/-! ### Words built from fields, bit by bit -/

theorem formatNNN_getLsbD (d : Nibble) (nnn : Addr12) (j : Nat) :
    (formatNNN d nnn).getLsbD j = if j < 12 then nnn.getLsbD j else d.getLsbD (j - 12) :=
  BitVec.getLsbD_append

theorem formatXNN_getLsbD (d x : Nibble) (nn : Byte) (j : Nat) :
    (formatXNN d x nn).getLsbD j =
      if j < 8 then nn.getLsbD j else if j - 8 < 4 then x.getLsbD (j - 8) else d.getLsbD (j - 8 - 4) := by
  have h1 : (formatXNN d x nn).getLsbD j = if j < 8 then nn.getLsbD j else (d ++ x).getLsbD (j - 8) :=
    BitVec.getLsbD_append
  rw [h1, BitVec.getLsbD_append]

theorem formatXYN_getLsbD (d x y n : Nibble) (j : Nat) :
    (formatXYN d x y n).getLsbD j =
      if j < 4 then n.getLsbD j else if j - 4 < 4 then y.getLsbD (j - 4)
      else if j - 4 - 4 < 4 then x.getLsbD (j - 4 - 4) else d.getLsbD (j - 4 - 4 - 4) := by
  have h1 : (formatXYN d x y n).getLsbD j = if j < 4 then n.getLsbD j else (d ++ x ++ y).getLsbD (j - 4) :=
    BitVec.getLsbD_append
  rw [h1, BitVec.getLsbD_append, BitVec.getLsbD_append]

/-! ### Fields of a word, as numbers -/

theorem extract_toNat (op : Word) (lo len : Nat) : (op.extractLsb' lo len).toNat = op.toNat / 2 ^ lo % 2 ^ len := by
  rw [BitVec.extractLsb'_toNat, Nat.shiftRight_eq_div_pow]

theorem fieldD1_toNat (op : Word) : (fieldD1 op).toNat = op.toNat / 4096 % 16 := extract_toNat op 12 4
theorem fieldX_toNat (op : Word) : (fieldX op).toNat = op.toNat / 256 % 16 := extract_toNat op 8 4
theorem fieldY_toNat (op : Word) : (fieldY op).toNat = op.toNat / 16 % 16 := extract_toNat op 4 4
theorem fieldN_toNat (op : Word) : (fieldN op).toNat = op.toNat % 16 := by
  rw [fieldN, extract_toNat, Nat.pow_zero, Nat.div_one]; norm_num
theorem fieldNn_toNat (op : Word) : (fieldNn op).toNat = op.toNat % 256 := by
  rw [fieldNn, extract_toNat, Nat.pow_zero, Nat.div_one]; norm_num
theorem fieldNnn_toNat (op : Word) : (fieldNnn op).toNat = op.toNat % 4096 := by
  rw [fieldNnn, extract_toNat, Nat.pow_zero, Nat.div_one]; norm_num

/-- A word is its fields `d1` and `nnn`. -/
theorem formatNNN_fields (op : Word) : formatNNN (fieldD1 op) (fieldNnn op) = op := by
  apply BitVec.eq_of_toNat_eq
  rw [formatNNN_toNat, fieldD1_toNat, fieldNnn_toNat]
  have := op.isLt; omega

/-- A word is its fields `d1`, `x` and `nn`. -/
theorem formatXNN_fields (op : Word) : formatXNN (fieldD1 op) (fieldX op) (fieldNn op) = op := by
  apply BitVec.eq_of_toNat_eq
  rw [formatXNN_toNat, fieldD1_toNat, fieldX_toNat, fieldNn_toNat]
  have := op.isLt; omega

/-- A word is its four nibbles. -/
theorem formatXYN_fields (op : Word) : formatXYN (fieldD1 op) (fieldX op) (fieldY op) (fieldN op) = op := by
  apply BitVec.eq_of_toNat_eq
  rw [formatXYN_toNat, fieldD1_toNat, fieldX_toNat, fieldY_toNat, fieldN_toNat]
  have := op.isLt; omega

section Fields
variable (d x y n : Nibble) (nn : Byte) (nnn : Addr12)

@[simp] theorem fieldD1_formatNNN : fieldD1 (formatNNN d nnn) = d := by
  apply BitVec.eq_of_toNat_eq; rw [fieldD1_toNat, formatNNN_toNat]; omega
@[simp] theorem fieldNnn_formatNNN : fieldNnn (formatNNN d nnn) = nnn := by
  apply BitVec.eq_of_toNat_eq; rw [fieldNnn_toNat, formatNNN_toNat]; omega
@[simp] theorem fieldD1_formatXNN : fieldD1 (formatXNN d x nn) = d := by
  apply BitVec.eq_of_toNat_eq; rw [fieldD1_toNat, formatXNN_toNat]; omega
@[simp] theorem fieldX_formatXNN : fieldX (formatXNN d x nn) = x := by
  apply BitVec.eq_of_toNat_eq; rw [fieldX_toNat, formatXNN_toNat]; omega
@[simp] theorem fieldNn_formatXNN : fieldNn (formatXNN d x nn) = nn := by
  apply BitVec.eq_of_toNat_eq; rw [fieldNn_toNat, formatXNN_toNat]; omega
@[simp] theorem fieldD1_formatXYN : fieldD1 (formatXYN d x y n) = d := by
  apply BitVec.eq_of_toNat_eq; rw [fieldD1_toNat, formatXYN_toNat]; omega
@[simp] theorem fieldX_formatXYN : fieldX (formatXYN d x y n) = x := by
  apply BitVec.eq_of_toNat_eq; rw [fieldX_toNat, formatXYN_toNat]; omega
@[simp] theorem fieldY_formatXYN : fieldY (formatXYN d x y n) = y := by
  apply BitVec.eq_of_toNat_eq; rw [fieldY_toNat, formatXYN_toNat]; omega
@[simp] theorem fieldN_formatXYN : fieldN (formatXYN d x y n) = n := by
  apply BitVec.eq_of_toNat_eq; rw [fieldN_toNat, formatXYN_toNat]; omega

end Fields

/-! ### Bytes of a word -/

/-- A word laid out big-endian and joined again is itself. -/
theorem joinBytes_wordBytes (op : Word) : joinBytes (op.extractLsb' 8 8) (op.extractLsb' 0 8) = op := by
  apply BitVec.eq_of_toNat_eq
  rw [joinBytes_toNat, extract_toNat, extract_toNat]
  have := op.isLt; omega

theorem fetchWordAt_eq (m : Machine.Memory) (a : Nat) :
    Machine.fetchWordAt m a = joinBytes (Machine.memGet m a) (Machine.memGet m (a + 1)) := rfl

/-- The decoder on a word's two bytes is the decoder on the word. -/
theorem decode_wordBytes (op : Word) (rest : List Byte) :
    decode (wordBytes op ++ rest) =
      match decodeWord op with
      | .ok i => .ok (i, rest)
      | .error e => .error e := by
  have h : decode (wordBytes op ++ rest) =
      match decodeWord (joinBytes (op.extractLsb' 8 8) (op.extractLsb' 0 8)) with
      | .ok i => .ok (i, rest)
      | .error e => .error e := rfl
  rw [h, joinBytes_wordBytes]

theorem decodeWord_eq_ok {op : Word} {i : Instr} : decodeWord op = .ok i ↔ decodeOp op = some i := by
  unfold decodeWord; split <;> simp_all

/-- The sixteen values of a nibble, for a case split on a field. -/
theorem nibble_cases (d : Nibble) :
    d = 0x0 ∨ d = 0x1 ∨ d = 0x2 ∨ d = 0x3 ∨ d = 0x4 ∨ d = 0x5 ∨ d = 0x6 ∨ d = 0x7 ∨
    d = 0x8 ∨ d = 0x9 ∨ d = 0xA ∨ d = 0xB ∨ d = 0xC ∨ d = 0xD ∨ d = 0xE ∨ d = 0xF := by
  revert d; decide

end Sys2Proof
end

