-- ==== Sys2Proof/Laws/Memory.lean ====
section
/-! SUPPORT. Memory: what a byte reads after a write, that every operation keeps the canonical form, that equal
contents are equal data, and the block reads and writes built from the byte. -/

namespace Sys2Proof.Machine

theorem memGet_of_no_cell {m : Memory} {a : Nat} (h : ∀ c ∈ m, c.1 ≠ a) : memGet m a = resetByte a := by
  induction m with
  | nil => rfl
  | cons c m ih =>
    simp only [memGet]
    rw [if_neg (h c (by simp)), ih (fun d hd => h d (by simp [hd]))]

theorem memGet_memErase (m : Memory) (a x : Nat) :
    memGet (memErase m a) x = if x = a then resetByte a else memGet m x := by
  by_cases hx : x = a
  · subst hx
    rw [if_pos rfl]
    apply memGet_of_no_cell
    intro c hc
    simpa [memErase] using (List.mem_filter.1 hc).2
  · rw [if_neg hx]
    induction m with
    | nil => rfl
    | cons c m ih =>
      unfold memErase at ih ⊢
      by_cases hc : c.1 = a
      · have hcx : c.1 ≠ x := by omega
        rw [List.filter_cons_of_neg (by simp [hc])]
        simp [memGet, hcx, ih]
      · rw [List.filter_cons_of_pos (by simp [hc])]
        simp [memGet, ih]

theorem memGet_memInsert {m : Memory} {c : Host.Cell} (h : ∀ d ∈ m, d.1 ≠ c.1) (x : Nat) :
    memGet (memInsert m c) x = if x = c.1 then c.2 else memGet m x := by
  induction m with
  | nil => simp [memInsert, memGet, eq_comm]
  | cons d m ih =>
    have hd := h d (by simp)
    have ih := ih (fun e he => h e (by simp [he]))
    unfold memInsert
    split
    · simp [memGet, eq_comm]
    · simp only [memGet, ih]
      by_cases hdx : d.1 = x
      · have : x ≠ c.1 := by omega
        simp [hdx, this]
      · simp [hdx]

/-- Read after write, for every memory: the byte written, and no other byte changed. -/
theorem memGet_memSet (m : Memory) (a : Nat) (b : Byte) (x : Nat) :
    memGet (memSet m a b) x = if x = a then b else memGet m x := by
  have hno : ∀ d ∈ memErase m a, d.1 ≠ ((a, b) : Host.Cell).1 := by
    intro d hd; simpa using (List.mem_filter.1 hd).2
  unfold memSet
  split
  · rename_i h
    rw [memGet_memErase, h]
  · rw [memGet_memInsert hno, memGet_memErase]
    by_cases hx : x = a <;> simp [hx]

theorem memErase_wf {m : Memory} (h : Memory.wf m) (a : Nat) : Memory.wf (memErase m a) :=
  ⟨h.1.filter _, fun c hc => h.2 c (List.mem_filter.1 hc).1⟩

theorem mem_memInsert {m : Memory} {c d : Host.Cell} : d ∈ memInsert m c ↔ d = c ∨ d ∈ m := by
  induction m with
  | nil => simp [memInsert]
  | cons e m ih =>
    unfold memInsert
    split
    · simp
    · simp only [List.mem_cons, ih]; tauto

theorem memInsert_wf {m : Memory} {c : Host.Cell} (h : Memory.wf m) (hno : ∀ d ∈ m, d.1 ≠ c.1)
    (hc : c.1 < Config.memSize) (hb : c.2 ≠ resetByte c.1) : Memory.wf (memInsert m c) := by
  refine ⟨?_, fun d hd => ?_⟩
  · have hp := h.1
    clear h hc hb
    induction m with
    | nil => simp [memInsert]
    | cons e m ih =>
      have he := hno e (by simp)
      have hno' : ∀ d ∈ m, d.1 ≠ c.1 := fun d hd => hno d (by simp [hd])
      obtain ⟨hem, hm⟩ := List.pairwise_cons.1 hp
      unfold memInsert
      split
      · rename_i hlt
        refine List.pairwise_cons.2 ⟨fun d hd => ?_, hp⟩
        rcases List.mem_cons.1 hd with rfl | hd
        · exact hlt
        · have := hem d hd; omega
      · refine List.pairwise_cons.2 ⟨fun d hd => ?_, ih hno' hm⟩
        rcases mem_memInsert.1 hd with rfl | hd
        · omega
        · exact hem d hd
  · rcases mem_memInsert.1 hd with rfl | hd
    · exact ⟨hc, hb⟩
    · exact h.2 d hd

/-- A byte written inside the address space keeps the canonical form. -/
theorem memSet_wf {m : Memory} (h : Memory.wf m) {a : Nat} (ha : a < Config.memSize) (b : Byte) :
    Memory.wf (memSet m a b) := by
  unfold memSet
  split
  · exact memErase_wf h a
  · rename_i hb
    refine memInsert_wf (memErase_wf h a) (fun d hd => ?_) ha hb
    simpa using (List.mem_filter.1 hd).2

/-- A block written inside the address space keeps the canonical form. -/
theorem writeBytes_wf (bs : List Byte) : ∀ {m : Memory} {a : Nat}, Memory.wf m → a + bs.length ≤ Config.memSize →
    Memory.wf (writeBytes m a bs) := by
  induction bs with
  | nil => intro m a h _; exact h
  | cons b bs ih =>
    intro m a h ha
    simp only [List.length_cons] at ha
    exact ih (memSet_wf h (by omega) b) (by omega)

/-- What a block write leaves in memory: byte `k` of the block at `a + k`, every other byte as it was. -/
theorem memGet_writeBytes (bs : List Byte) : ∀ (m : Memory) (a x : Nat),
    memGet (writeBytes m a bs) x = if a ≤ x ∧ x < a + bs.length then bs.getD (x - a) 0 else memGet m x := by
  induction bs with
  | nil => intro m a x; simp only [writeBytes, List.length_nil]; rw [if_neg]; omega
  | cons b bs ih =>
    intro m a x
    simp only [writeBytes, List.length_cons]
    rw [ih, memGet_memSet]
    by_cases h : a + 1 ≤ x ∧ x < a + 1 + bs.length
    · rw [if_pos h, if_pos (by omega)]
      obtain ⟨d, hd⟩ : ∃ d, x - a = d + 1 := ⟨x - a - 1, by omega⟩
      have : x - (a + 1) = d := by omega
      simp [hd, this]
    · rw [if_neg h]
      by_cases hx : x = a
      · rw [if_pos hx, if_pos (by omega)]; simp [hx]
      · rw [if_neg hx, if_neg (by omega)]

@[simp] theorem length_readBytes (m : Memory) (n : Nat) : ∀ a, (readBytes m a n).length = n := by
  induction n with
  | zero => intro a; rfl
  | succ n ih => intro a; simp [readBytes, ih]

/-- Byte `k` of a block read is the byte at `a + k`. -/
theorem getD_readBytes (m : Memory) (n : Nat) : ∀ (a k : Nat), k < n →
    (readBytes m a n).getD k 0 = memGet m (a + k) := by
  induction n with
  | zero => intro a k hk; omega
  | succ n ih =>
    intro a k hk
    cases k with
    | zero => simp [readBytes]
    | succ k =>
      have := ih (a + 1) k (by omega)
      simp only [readBytes, List.getD_cons_succ, this]
      congr 1; omega

/-- Block reads of memories with the same bytes are the same. -/
theorem readBytes_congr {m m' : Memory} (h : ∀ a, memGet m a = memGet m' a) (n : Nat) :
    ∀ a, readBytes m a n = readBytes m' a n := by
  induction n with
  | zero => intro a; rfl
  | succ n ih => intro a; simp [readBytes, h, ih]

/-- The bound of 20_memory.md R31 in plain arithmetic. -/
theorem transferFits_iff (addr : Word) (n : Nat) :
    transferFits addr n = true ↔ n = 0 ∨ addr.toNat + n ≤ 0x1000 := by
  simp only [transferFits, Bool.not_eq_true', Bool.and_eq_false_iff, decide_eq_false_iff_not]
  omega

theorem firstOutside_toNat (addr : Word) : (firstOutside addr).toNat = max addr.toNat 0x1000 := by
  unfold firstOutside
  split
  · have : (0x1000 : Word).toNat = 0x1000 := rfl
    omega
  · omega

end Sys2Proof.Machine
end

