-- ==== Sys2Proof/Laws/State.lean ====
section
/-! SUPPORT. One lemma per field of State per update of it, so that no later proof unfolds a record update; and what the
accessors of the register file, the stack, the latches and the framebuffer read after each of their writes. -/

namespace Sys2Proof.Machine

variable (s : State)

/-! ### setV -/

@[simp] theorem setV_i (x : Nibble) (b : Byte) : (s.setV x b).i = s.i := rfl
@[simp] theorem setV_pc (x : Nibble) (b : Byte) : (s.setV x b).pc = s.pc := rfl
@[simp] theorem setV_stack (x : Nibble) (b : Byte) : (s.setV x b).stack = s.stack := rfl
@[simp] theorem setV_sp (x : Nibble) (b : Byte) : (s.setV x b).sp = s.sp := rfl
@[simp] theorem setV_dt (x : Nibble) (b : Byte) : (s.setV x b).dt = s.dt := rfl
@[simp] theorem setV_st (x : Nibble) (b : Byte) : (s.setV x b).st = s.st := rfl
@[simp] theorem setV_key (x : Nibble) (b : Byte) : (s.setV x b).key = s.key := rfl
@[simp] theorem setV_fb (x : Nibble) (b : Byte) : (s.setV x b).fb = s.fb := rfl
@[simp] theorem setV_mem (x : Nibble) (b : Byte) : (s.setV x b).mem = s.mem := rfl
@[simp] theorem setV_fault (x : Nibble) (b : Byte) : (s.setV x b).fault = s.fault := rfl
@[simp] theorem setV_draws (x : Nibble) (b : Byte) : (s.setV x b).draws = s.draws := rfl

/-! ### setI -/

@[simp] theorem setI_v (w : Word) : (s.setI w).v = s.v := rfl
@[simp] theorem setI_i (w : Word) : (s.setI w).i = w := rfl
@[simp] theorem setI_pc (w : Word) : (s.setI w).pc = s.pc := rfl
@[simp] theorem setI_stack (w : Word) : (s.setI w).stack = s.stack := rfl
@[simp] theorem setI_sp (w : Word) : (s.setI w).sp = s.sp := rfl
@[simp] theorem setI_dt (w : Word) : (s.setI w).dt = s.dt := rfl
@[simp] theorem setI_st (w : Word) : (s.setI w).st = s.st := rfl
@[simp] theorem setI_key (w : Word) : (s.setI w).key = s.key := rfl
@[simp] theorem setI_fb (w : Word) : (s.setI w).fb = s.fb := rfl
@[simp] theorem setI_mem (w : Word) : (s.setI w).mem = s.mem := rfl
@[simp] theorem setI_fault (w : Word) : (s.setI w).fault = s.fault := rfl
@[simp] theorem setI_draws (w : Word) : (s.setI w).draws = s.draws := rfl

/-! ### setPc -/

@[simp] theorem setPc_v (w : Word) : (s.setPc w).v = s.v := rfl
@[simp] theorem setPc_i (w : Word) : (s.setPc w).i = s.i := rfl
@[simp] theorem setPc_pc (w : Word) : (s.setPc w).pc = w := rfl
@[simp] theorem setPc_stack (w : Word) : (s.setPc w).stack = s.stack := rfl
@[simp] theorem setPc_sp (w : Word) : (s.setPc w).sp = s.sp := rfl
@[simp] theorem setPc_dt (w : Word) : (s.setPc w).dt = s.dt := rfl
@[simp] theorem setPc_st (w : Word) : (s.setPc w).st = s.st := rfl
@[simp] theorem setPc_key (w : Word) : (s.setPc w).key = s.key := rfl
@[simp] theorem setPc_fb (w : Word) : (s.setPc w).fb = s.fb := rfl
@[simp] theorem setPc_mem (w : Word) : (s.setPc w).mem = s.mem := rfl
@[simp] theorem setPc_fault (w : Word) : (s.setPc w).fault = s.fault := rfl
@[simp] theorem setPc_draws (w : Word) : (s.setPc w).draws = s.draws := rfl

/-! ### advance -/

@[simp] theorem advance_v : (s.advance).v = s.v := rfl
@[simp] theorem advance_i : (s.advance).i = s.i := rfl
@[simp] theorem advance_pc : (s.advance).pc = s.pc + 2 := rfl
@[simp] theorem advance_stack : (s.advance).stack = s.stack := rfl
@[simp] theorem advance_sp : (s.advance).sp = s.sp := rfl
@[simp] theorem advance_dt : (s.advance).dt = s.dt := rfl
@[simp] theorem advance_st : (s.advance).st = s.st := rfl
@[simp] theorem advance_key : (s.advance).key = s.key := rfl
@[simp] theorem advance_fb : (s.advance).fb = s.fb := rfl
@[simp] theorem advance_mem : (s.advance).mem = s.mem := rfl
@[simp] theorem advance_fault : (s.advance).fault = s.fault := rfl
@[simp] theorem advance_draws : (s.advance).draws = s.draws := rfl

/-! ### latch -/

@[simp] theorem latch_v (c : FaultCause) (o a : Word) : (s.latch c o a).v = s.v := rfl
@[simp] theorem latch_i (c : FaultCause) (o a : Word) : (s.latch c o a).i = s.i := rfl
@[simp] theorem latch_pc (c : FaultCause) (o a : Word) : (s.latch c o a).pc = s.pc := rfl
@[simp] theorem latch_stack (c : FaultCause) (o a : Word) : (s.latch c o a).stack = s.stack := rfl
@[simp] theorem latch_sp (c : FaultCause) (o a : Word) : (s.latch c o a).sp = s.sp := rfl
@[simp] theorem latch_dt (c : FaultCause) (o a : Word) : (s.latch c o a).dt = s.dt := rfl
@[simp] theorem latch_st (c : FaultCause) (o a : Word) : (s.latch c o a).st = s.st := rfl
@[simp] theorem latch_key (c : FaultCause) (o a : Word) : (s.latch c o a).key = s.key := rfl
@[simp] theorem latch_fb (c : FaultCause) (o a : Word) : (s.latch c o a).fb = s.fb := rfl
@[simp] theorem latch_mem (c : FaultCause) (o a : Word) : (s.latch c o a).mem = s.mem := rfl
@[simp] theorem latch_fault (c : FaultCause) (o a : Word) : (s.latch c o a).fault = ⟨c, o, a⟩ := rfl
@[simp] theorem latch_draws (c : FaultCause) (o a : Word) : (s.latch c o a).draws = s.draws := rfl

/-! ### setSlot -/

@[simp] theorem setSlot_v (k : Nibble) (w : Word) : (s.setSlot k w).v = s.v := rfl
@[simp] theorem setSlot_i (k : Nibble) (w : Word) : (s.setSlot k w).i = s.i := rfl
@[simp] theorem setSlot_pc (k : Nibble) (w : Word) : (s.setSlot k w).pc = s.pc := rfl
@[simp] theorem setSlot_sp (k : Nibble) (w : Word) : (s.setSlot k w).sp = s.sp := rfl
@[simp] theorem setSlot_dt (k : Nibble) (w : Word) : (s.setSlot k w).dt = s.dt := rfl
@[simp] theorem setSlot_st (k : Nibble) (w : Word) : (s.setSlot k w).st = s.st := rfl
@[simp] theorem setSlot_key (k : Nibble) (w : Word) : (s.setSlot k w).key = s.key := rfl
@[simp] theorem setSlot_fb (k : Nibble) (w : Word) : (s.setSlot k w).fb = s.fb := rfl
@[simp] theorem setSlot_mem (k : Nibble) (w : Word) : (s.setSlot k w).mem = s.mem := rfl
@[simp] theorem setSlot_fault (k : Nibble) (w : Word) : (s.setSlot k w).fault = s.fault := rfl
@[simp] theorem setSlot_draws (k : Nibble) (w : Word) : (s.setSlot k w).draws = s.draws := rfl

/-! ### push -/

@[simp] theorem push_v (w : Word) : (s.push w).v = s.v := rfl
@[simp] theorem push_i (w : Word) : (s.push w).i = s.i := rfl
@[simp] theorem push_pc (w : Word) : (s.push w).pc = s.pc := rfl
@[simp] theorem push_sp (w : Word) : (s.push w).sp = s.sp + 1 := rfl
@[simp] theorem push_dt (w : Word) : (s.push w).dt = s.dt := rfl
@[simp] theorem push_st (w : Word) : (s.push w).st = s.st := rfl
@[simp] theorem push_key (w : Word) : (s.push w).key = s.key := rfl
@[simp] theorem push_fb (w : Word) : (s.push w).fb = s.fb := rfl
@[simp] theorem push_mem (w : Word) : (s.push w).mem = s.mem := rfl
@[simp] theorem push_fault (w : Word) : (s.push w).fault = s.fault := rfl
@[simp] theorem push_draws (w : Word) : (s.push w).draws = s.draws := rfl

/-! ### dropTop -/

@[simp] theorem dropTop_v : (s.dropTop).v = s.v := rfl
@[simp] theorem dropTop_i : (s.dropTop).i = s.i := rfl
@[simp] theorem dropTop_pc : (s.dropTop).pc = s.pc := rfl
@[simp] theorem dropTop_stack : (s.dropTop).stack = s.stack := rfl
@[simp] theorem dropTop_sp : (s.dropTop).sp = s.sp - 1 := rfl
@[simp] theorem dropTop_dt : (s.dropTop).dt = s.dt := rfl
@[simp] theorem dropTop_st : (s.dropTop).st = s.st := rfl
@[simp] theorem dropTop_key : (s.dropTop).key = s.key := rfl
@[simp] theorem dropTop_fb : (s.dropTop).fb = s.fb := rfl
@[simp] theorem dropTop_mem : (s.dropTop).mem = s.mem := rfl
@[simp] theorem dropTop_fault : (s.dropTop).fault = s.fault := rfl
@[simp] theorem dropTop_draws : (s.dropTop).draws = s.draws := rfl

/-! ### setKey -/

@[simp] theorem setKey_v (k : Nibble) (b : Bool) : (s.setKey k b).v = s.v := rfl
@[simp] theorem setKey_i (k : Nibble) (b : Bool) : (s.setKey k b).i = s.i := rfl
@[simp] theorem setKey_pc (k : Nibble) (b : Bool) : (s.setKey k b).pc = s.pc := rfl
@[simp] theorem setKey_stack (k : Nibble) (b : Bool) : (s.setKey k b).stack = s.stack := rfl
@[simp] theorem setKey_sp (k : Nibble) (b : Bool) : (s.setKey k b).sp = s.sp := rfl
@[simp] theorem setKey_dt (k : Nibble) (b : Bool) : (s.setKey k b).dt = s.dt := rfl
@[simp] theorem setKey_st (k : Nibble) (b : Bool) : (s.setKey k b).st = s.st := rfl
@[simp] theorem setKey_fb (k : Nibble) (b : Bool) : (s.setKey k b).fb = s.fb := rfl
@[simp] theorem setKey_mem (k : Nibble) (b : Bool) : (s.setKey k b).mem = s.mem := rfl
@[simp] theorem setKey_fault (k : Nibble) (b : Bool) : (s.setKey k b).fault = s.fault := rfl
@[simp] theorem setKey_draws (k : Nibble) (b : Bool) : (s.setKey k b).draws = s.draws := rfl

/-! ### setDt -/

@[simp] theorem setDt_v (b : Byte) : (s.setDt b).v = s.v := rfl
@[simp] theorem setDt_i (b : Byte) : (s.setDt b).i = s.i := rfl
@[simp] theorem setDt_pc (b : Byte) : (s.setDt b).pc = s.pc := rfl
@[simp] theorem setDt_stack (b : Byte) : (s.setDt b).stack = s.stack := rfl
@[simp] theorem setDt_sp (b : Byte) : (s.setDt b).sp = s.sp := rfl
@[simp] theorem setDt_dt (b : Byte) : (s.setDt b).dt = b := rfl
@[simp] theorem setDt_st (b : Byte) : (s.setDt b).st = s.st := rfl
@[simp] theorem setDt_key (b : Byte) : (s.setDt b).key = s.key := rfl
@[simp] theorem setDt_fb (b : Byte) : (s.setDt b).fb = s.fb := rfl
@[simp] theorem setDt_mem (b : Byte) : (s.setDt b).mem = s.mem := rfl
@[simp] theorem setDt_fault (b : Byte) : (s.setDt b).fault = s.fault := rfl
@[simp] theorem setDt_draws (b : Byte) : (s.setDt b).draws = s.draws := rfl

/-! ### setSt -/

@[simp] theorem setSt_v (b : Byte) : (s.setSt b).v = s.v := rfl
@[simp] theorem setSt_i (b : Byte) : (s.setSt b).i = s.i := rfl
@[simp] theorem setSt_pc (b : Byte) : (s.setSt b).pc = s.pc := rfl
@[simp] theorem setSt_stack (b : Byte) : (s.setSt b).stack = s.stack := rfl
@[simp] theorem setSt_sp (b : Byte) : (s.setSt b).sp = s.sp := rfl
@[simp] theorem setSt_dt (b : Byte) : (s.setSt b).dt = s.dt := rfl
@[simp] theorem setSt_st (b : Byte) : (s.setSt b).st = b := rfl
@[simp] theorem setSt_key (b : Byte) : (s.setSt b).key = s.key := rfl
@[simp] theorem setSt_fb (b : Byte) : (s.setSt b).fb = s.fb := rfl
@[simp] theorem setSt_mem (b : Byte) : (s.setSt b).mem = s.mem := rfl
@[simp] theorem setSt_fault (b : Byte) : (s.setSt b).fault = s.fault := rfl
@[simp] theorem setSt_draws (b : Byte) : (s.setSt b).draws = s.draws := rfl

/-! ### countDraw -/

@[simp] theorem countDraw_v : (s.countDraw).v = s.v := rfl
@[simp] theorem countDraw_i : (s.countDraw).i = s.i := rfl
@[simp] theorem countDraw_pc : (s.countDraw).pc = s.pc := rfl
@[simp] theorem countDraw_stack : (s.countDraw).stack = s.stack := rfl
@[simp] theorem countDraw_sp : (s.countDraw).sp = s.sp := rfl
@[simp] theorem countDraw_dt : (s.countDraw).dt = s.dt := rfl
@[simp] theorem countDraw_st : (s.countDraw).st = s.st := rfl
@[simp] theorem countDraw_key : (s.countDraw).key = s.key := rfl
@[simp] theorem countDraw_fb : (s.countDraw).fb = s.fb := rfl
@[simp] theorem countDraw_mem : (s.countDraw).mem = s.mem := rfl
@[simp] theorem countDraw_fault : (s.countDraw).fault = s.fault := rfl
@[simp] theorem countDraw_draws : (s.countDraw).draws = s.draws + 1 := rfl

/-! ### setVWithFlag -/

@[simp] theorem setVWithFlag_i (x : Nibble) (b : Byte) (c : Bool) : (s.setVWithFlag x b c).i = s.i := rfl
@[simp] theorem setVWithFlag_pc (x : Nibble) (b : Byte) (c : Bool) : (s.setVWithFlag x b c).pc = s.pc := rfl
@[simp] theorem setVWithFlag_stack (x : Nibble) (b : Byte) (c : Bool) : (s.setVWithFlag x b c).stack = s.stack := rfl
@[simp] theorem setVWithFlag_sp (x : Nibble) (b : Byte) (c : Bool) : (s.setVWithFlag x b c).sp = s.sp := rfl
@[simp] theorem setVWithFlag_dt (x : Nibble) (b : Byte) (c : Bool) : (s.setVWithFlag x b c).dt = s.dt := rfl
@[simp] theorem setVWithFlag_st (x : Nibble) (b : Byte) (c : Bool) : (s.setVWithFlag x b c).st = s.st := rfl
@[simp] theorem setVWithFlag_key (x : Nibble) (b : Byte) (c : Bool) : (s.setVWithFlag x b c).key = s.key := rfl
@[simp] theorem setVWithFlag_fb (x : Nibble) (b : Byte) (c : Bool) : (s.setVWithFlag x b c).fb = s.fb := rfl
@[simp] theorem setVWithFlag_mem (x : Nibble) (b : Byte) (c : Bool) : (s.setVWithFlag x b c).mem = s.mem := rfl
@[simp] theorem setVWithFlag_fault (x : Nibble) (b : Byte) (c : Bool) : (s.setVWithFlag x b c).fault = s.fault := rfl
@[simp] theorem setVWithFlag_draws (x : Nibble) (b : Byte) (c : Bool) : (s.setVWithFlag x b c).draws = s.draws := rfl

/-! ### skipIf -/

@[simp] theorem skipIf_v (c : Bool) : (s.skipIf c).v = s.v := by cases c <;> rfl
@[simp] theorem skipIf_i (c : Bool) : (s.skipIf c).i = s.i := by cases c <;> rfl
theorem skipIf_pc (c : Bool) : (s.skipIf c).pc = if c then s.pc + 2 else s.pc := by
  cases c <;> rfl
@[simp] theorem skipIf_stack (c : Bool) : (s.skipIf c).stack = s.stack := by cases c <;> rfl
@[simp] theorem skipIf_sp (c : Bool) : (s.skipIf c).sp = s.sp := by cases c <;> rfl
@[simp] theorem skipIf_dt (c : Bool) : (s.skipIf c).dt = s.dt := by cases c <;> rfl
@[simp] theorem skipIf_st (c : Bool) : (s.skipIf c).st = s.st := by cases c <;> rfl
@[simp] theorem skipIf_key (c : Bool) : (s.skipIf c).key = s.key := by cases c <;> rfl
@[simp] theorem skipIf_fb (c : Bool) : (s.skipIf c).fb = s.fb := by cases c <;> rfl
@[simp] theorem skipIf_mem (c : Bool) : (s.skipIf c).mem = s.mem := by cases c <;> rfl
@[simp] theorem skipIf_fault (c : Bool) : (s.skipIf c).fault = s.fault := by cases c <;> rfl
@[simp] theorem skipIf_draws (c : Bool) : (s.skipIf c).draws = s.draws := by cases c <;> rfl

/-! ### setBlock -/

@[simp] theorem setBlock_i (bs : List Byte) : ∀ (s : State) (k : Nat), (s.setBlock k bs).i = s.i := by
  induction bs with
  | nil => intro s k; rfl
  | cons b bs ih => intro s k; simp [State.setBlock, ih]
@[simp] theorem setBlock_pc (bs : List Byte) : ∀ (s : State) (k : Nat), (s.setBlock k bs).pc = s.pc := by
  induction bs with
  | nil => intro s k; rfl
  | cons b bs ih => intro s k; simp [State.setBlock, ih]
@[simp] theorem setBlock_stack (bs : List Byte) : ∀ (s : State) (k : Nat), (s.setBlock k bs).stack = s.stack := by
  induction bs with
  | nil => intro s k; rfl
  | cons b bs ih => intro s k; simp [State.setBlock, ih]
@[simp] theorem setBlock_sp (bs : List Byte) : ∀ (s : State) (k : Nat), (s.setBlock k bs).sp = s.sp := by
  induction bs with
  | nil => intro s k; rfl
  | cons b bs ih => intro s k; simp [State.setBlock, ih]
@[simp] theorem setBlock_dt (bs : List Byte) : ∀ (s : State) (k : Nat), (s.setBlock k bs).dt = s.dt := by
  induction bs with
  | nil => intro s k; rfl
  | cons b bs ih => intro s k; simp [State.setBlock, ih]
@[simp] theorem setBlock_st (bs : List Byte) : ∀ (s : State) (k : Nat), (s.setBlock k bs).st = s.st := by
  induction bs with
  | nil => intro s k; rfl
  | cons b bs ih => intro s k; simp [State.setBlock, ih]
@[simp] theorem setBlock_key (bs : List Byte) : ∀ (s : State) (k : Nat), (s.setBlock k bs).key = s.key := by
  induction bs with
  | nil => intro s k; rfl
  | cons b bs ih => intro s k; simp [State.setBlock, ih]
@[simp] theorem setBlock_fb (bs : List Byte) : ∀ (s : State) (k : Nat), (s.setBlock k bs).fb = s.fb := by
  induction bs with
  | nil => intro s k; rfl
  | cons b bs ih => intro s k; simp [State.setBlock, ih]
@[simp] theorem setBlock_mem (bs : List Byte) : ∀ (s : State) (k : Nat), (s.setBlock k bs).mem = s.mem := by
  induction bs with
  | nil => intro s k; rfl
  | cons b bs ih => intro s k; simp [State.setBlock, ih]
@[simp] theorem setBlock_fault (bs : List Byte) : ∀ (s : State) (k : Nat), (s.setBlock k bs).fault = s.fault := by
  induction bs with
  | nil => intro s k; rfl
  | cons b bs ih => intro s k; simp [State.setBlock, ih]
@[simp] theorem setBlock_draws (bs : List Byte) : ∀ (s : State) (k : Nat), (s.setBlock k bs).draws = s.draws := by
  induction bs with
  | nil => intro s k; rfl
  | cons b bs ih => intro s k; simp [State.setBlock, ih]

/-! ### What the accessors read after a write -/

theorem getV_setV (x y : Nibble) (b : Byte) : (s.setV x b).getV y = if y = x then b else s.getV y := by
  simp [State.setV, State.getV, Vector.getElem_set, BitVec.toNat_inj, eq_comm]

@[simp] theorem getV_setV_self (x : Nibble) (b : Byte) : (s.setV x b).getV x = b := by
  simp [getV_setV]

theorem getV_setV_of_ne {x y : Nibble} (b : Byte) (h : y ≠ x) : (s.setV x b).getV y = s.getV y := by
  simp [getV_setV, h]

/-- After the two writes of a flag-setting instruction VF holds the flag, whatever the destination. -/
theorem getV_setVWithFlag (x y : Nibble) (b : Byte) (c : Bool) :
    (s.setVWithFlag x b c).getV y = if y = vF then flagByte c else if y = x then b else s.getV y := by
  simp [State.setVWithFlag, getV_setV]

/-- A register read depends on the register file alone. -/
theorem getV_congr {s t : State} (h : t.v = s.v) (x : Nibble) : t.getV x = s.getV x := by
  simp [State.getV, h]

theorem slot_congr {s t : State} (h : t.stack = s.stack) (k : Nibble) : t.slot k = s.slot k := by
  simp [State.slot, h]

theorem keyAt_congr {s t : State} (h : t.key = s.key) (k : Nibble) : t.keyAt k = s.keyAt k := by
  simp [State.keyAt, h]

theorem slot_setSlot (k j : Nibble) (w : Word) : (s.setSlot k w).slot j = if j = k then w else s.slot j := by
  simp [State.setSlot, State.slot, Vector.getElem_set, BitVec.toNat_inj, eq_comm]

/-- A push writes the slot whose number is SP and no other. -/
theorem slot_push (j : Nibble) (w : Word) :
    (s.push w).slot j = if j = s.sp.setWidth 4 then w else s.slot j :=
  slot_setSlot s _ j w

theorem keyAt_setKey (k j : Nibble) (b : Bool) : (s.setKey k b).keyAt j = if j = k then b else s.keyAt j := by
  simp [State.setKey, State.keyAt, Vector.getElem_set, BitVec.toNat_inj, eq_comm]

/-- The least pressed key is pressed, and no key below it is. -/
theorem lowestKey_eq_some {k : Nibble} (h : s.lowestKey = some k) :
    s.keyAt k = true ∧ ∀ j : Nibble, j.toNat < k.toNat → s.keyAt j = false := by
  unfold State.lowestKey at h
  rw [List.find?_eq_some_iff_getElem] at h
  obtain ⟨hk, n, hn, hnk, hlt⟩ := h
  simp only [List.length_map, List.length_range] at hn
  simp only [List.getElem_map, List.getElem_range] at hnk hlt
  refine ⟨hk, fun j hj => ?_⟩
  have hkn : k.toNat = n := by rw [← hnk]; simp; omega
  have := hlt j.toNat (by omega)
  simpa using this

/-- No key is found when, and only when, every latch is 0. -/
theorem lowestKey_eq_none : s.lowestKey = none ↔ ∀ k : Nibble, s.keyAt k = false := by
  unfold State.lowestKey
  rw [List.find?_eq_none]
  constructor
  · intro h k
    have := h k (List.mem_map.2 ⟨k.toNat, List.mem_range.2 k.isLt, by simp⟩)
    simpa using this
  · intro h x hx
    simp [h x]

theorem fbGet_fbFlip (fb : Framebuffer) (c c' : BitVec 6) (r r' : BitVec 5) :
    fbGet (fbFlip fb c r) c' r' = if c' = c ∧ r' = r then !fbGet fb c' r' else fbGet fb c' r' := by
  unfold fbGet fbFlip
  rw [Vector.getElem_set]
  have hr : r.toNat = r'.toNat ↔ r' = r := by rw [BitVec.toNat_inj, eq_comm]
  by_cases h : r' = r
  · subst h
    simp only [if_true, and_true, BitVec.getLsbD_xor, BitVec.getLsbD_shiftLeft, BitVec.getLsbD_one]
    have hlt := c'.isLt
    have hc : c' = c ↔ c'.toNat = c.toNat := by rw [BitVec.toNat_inj]
    by_cases hcc : c' = c
    · subst hcc; simp [hlt]
    · have hne : c'.toNat ≠ c.toNat := fun e => hcc (hc.2 e)
      rcases Nat.lt_or_gt_of_ne hne with hl | hl
      · simp [hcc, hl]
      · have : c'.toNat - c.toNat ≠ 0 := by omega
        simp [hcc, this]
  · simp [h, hr]

@[simp] theorem fbGet_fbClear (c : BitVec 6) (r : BitVec 5) : fbGet fbClear c r = false := by
  simp [fbGet, fbClear]

/-- Two framebuffers with the same pixels are the same data. -/
theorem framebuffer_ext {f g : Framebuffer} (h : ∀ c r, fbGet f c r = fbGet g c r) : f = g := by
  apply Vector.ext
  intro n hn
  apply BitVec.eq_of_getLsbD_eq
  intro c hc
  have := h (BitVec.ofNat 6 c) (BitVec.ofNat 5 n)
  simpa [fbGet, Nat.mod_eq_of_lt hn, Nat.mod_eq_of_lt hc] using this

/-- What a block load writes: register `k + j` gets byte `j`; the others keep their value. -/
theorem getV_setBlock (bs : List Byte) : ∀ (s : State) (k : Nat) (x : Nibble), k + bs.length ≤ 16 →
    (s.setBlock k bs).getV x = if k ≤ x.toNat ∧ x.toNat < k + bs.length then bs.getD (x.toNat - k) 0 else s.getV x := by
  induction bs with
  | nil => intro s k x _; simp only [State.setBlock, List.length_nil]; rw [if_neg]; omega
  | cons b bs ih =>
    intro s k x hk
    simp only [List.length_cons] at hk ⊢
    simp only [State.setBlock]
    rw [ih _ (k + 1) x (by omega), getV_setV]
    have hx : x = BitVec.ofNat 4 k ↔ x.toNat = k := by
      rw [← BitVec.toNat_inj]; simp; omega
    by_cases h : k + 1 ≤ x.toNat ∧ x.toNat < k + 1 + bs.length
    · rw [if_pos h, if_pos (by omega)]
      obtain ⟨d, hd⟩ : ∃ d, x.toNat - k = d + 1 := ⟨x.toNat - k - 1, by omega⟩
      have : x.toNat - (k + 1) = d := by omega
      simp [hd, this]
    · rw [if_neg h]
      by_cases hxk : x.toNat = k
      · rw [if_pos (hx.2 hxk), if_pos (by omega)]; simp [hxk]
      · rw [if_neg (fun e => hxk (hx.1 e)), if_neg (by omega)]

end Sys2Proof.Machine
end

