-- ==== Sys2Proof/Laws/Ops.lean ====
section
/-! SUPPORT. For each shared operation, once, everything it can do. The proofs about instructions cite these lemmas and
do not unfold the operations. -/

namespace Sys2Proof.Machine

theorem latch_eq (s : State) (c : FaultCause) (o a : Word) : s.latch c o a = { s with fault := ⟨c, o, a⟩ } := rfl

theorem raise_eq (c : FaultCause) (o a : Word) (s : State) : raise c o a s = .next (s.latch c o a) := rfl

@[simp] theorem zextAddr_toNat (nnn : Addr12) : (zextAddr nnn).toNat = nnn.toNat := by
  have := nnn.isLt
  rw [zextAddr, BitVec.toNat_setWidth]; omega

@[simp] theorem zextByte_toNat (b : Byte) : (zextByte b).toNat = b.toNat := by
  have := b.isLt
  rw [zextByte, BitVec.toNat_setWidth]; omega

/-- Where a skip leaves PC, from the instruction's own address (41_skip.md R54). -/
theorem advance_skipIf_pc (s : State) (c : Bool) :
    (s.advance.skipIf c).pc = if c = true then s.pc + 4 else s.pc + 2 := by
  cases c <;> simp [skipIf_pc, BitVec.add_assoc]

theorem memRead_of_fits {s : State} {addr : Word} {n : Nat} (h : n = 0 ∨ addr.toNat + n ≤ 0x1000) :
    memRead s addr n = some (readBytes s.mem addr.toNat n) := by
  rw [memRead, if_pos ((transferFits_iff addr n).2 h)]

theorem memRead_of_not_fits {s : State} {addr : Word} {n : Nat} (h : ¬(n = 0 ∨ addr.toNat + n ≤ 0x1000)) :
    memRead s addr n = none := by
  rw [memRead, if_neg (fun e => h ((transferFits_iff addr n).1 e))]

/-- A store at I either fits, and then writes its bytes from I upward and advances PC, or raises. -/
theorem storeAtI_cases (op : Word) (bytes : List Byte) (s : State) :
    ((bytes.length = 0 ∨ s.i.toNat + bytes.length ≤ 0x1000) ∧
      storeAtI op bytes s = .next { s.advance with mem := writeBytes s.mem s.i.toNat bytes }) ∨
    (¬(bytes.length = 0 ∨ s.i.toNat + bytes.length ≤ 0x1000) ∧
      storeAtI op bytes s = .next (s.latch .memAddrOutOfBounds op (firstOutside s.i))) := by
  by_cases h : bytes.length = 0 ∨ s.i.toNat + bytes.length ≤ 0x1000
  · refine .inl ⟨h, ?_⟩
    rw [storeAtI, memWrite, if_pos ((transferFits_iff _ _).2 h)]
    rfl
  · refine .inr ⟨h, ?_⟩
    rw [storeAtI, memWrite, if_neg (fun e => h ((transferFits_iff _ _).1 e))]
    rfl

/-- A key skip either finds a latch and skips on its level, or raises. -/
theorem skipOnKey_cases (op : Word) (x : Nibble) (level : Bool) (s : State) :
    ((s.getV x).toNat ≤ 15 ∧
      skipOnKey op x level s = .next (s.advance.skipIf (s.keyAt (keyIndex (s.getV x)) == level))) ∨
    (15 < (s.getV x).toNat ∧ skipOnKey op x level s = .next (s.latch .keyIndexOutOfRange op s.pc)) := by
  by_cases h : (s.getV x).toNat ≤ 15
  · exact .inl ⟨h, by simp [skipOnKey, isKeyIndex, h]⟩
  · exact .inr ⟨by omega, by simp [skipOnKey, isKeyIndex, h, raise]⟩

/-- A key wait either takes the least pressed key and advances, or finds none and leaves PC on itself. -/
theorem keyWait_cases (clobber : Bool) (x : Nibble) (s : State) :
    (∃ k, s.lowestKey = some k ∧ keyWait clobber x s = .next (s.advance.setV x (k.setWidth 8))) ∨
    ((∀ k, s.keyAt k = false) ∧ keyWait clobber x s = .next (if clobber then s.setV x 0x00 else s)) := by
  cases h : s.lowestKey with
  | some k => exact .inl ⟨k, rfl, by simp [keyWait, h]⟩
  | none =>
    refine .inr ⟨(lowestKey_eq_none s).1 h, ?_⟩
    have hw : s.advance.setPc (s.advance.pc - 2) = s := by
      simp [State.advance, State.setPc]
    simp only [keyWait, h, hw]

/-- One tick: on a faulted machine nothing; else a fetch fault, an unimplemented opcode, or the instruction. -/
theorem tick_cases (s : State) :
    (s.fault.cause ≠ .noFault ∧ tick s = .next s) ∨
    (s.fault.cause = .noFault ∧ 0xFFE < s.pc.toNat ∧ tick s = .next (s.latch .fetchOutOfBounds 0x0000 s.pc)) ∨
    (s.fault.cause = .noFault ∧ s.pc.toNat ≤ 0xFFE ∧ decodeOp (fetchWordAt s.mem s.pc.toNat) = none ∧
      tick s = .next (s.latch .unimplementedOpcode (fetchWordAt s.mem s.pc.toNat) s.pc)) ∨
    (s.fault.cause = .noFault ∧ s.pc.toNat ≤ 0xFFE ∧
      ∃ i, decodeOp (fetchWordAt s.mem s.pc.toNat) = some i ∧ tick s = exec i s) := by
  by_cases hf : s.fault.cause = .noFault
  · by_cases hp : 0xFFE < s.pc.toNat
    · exact .inr (.inl ⟨hf, hp, by simp [tick, hf, hp, raise]⟩)
    · cases hd : decodeOp (fetchWordAt s.mem s.pc.toNat) with
      | none => exact .inr (.inr (.inl ⟨hf, by omega, rfl, by simp [tick, hf, hp, decodeWord, hd, raise]⟩))
      | some i => exact .inr (.inr (.inr ⟨hf, by omega, i, rfl, by simp [tick, hf, hp, decodeWord, hd]⟩))
  · exact .inl ⟨hf, by simp [tick, hf]⟩

/-- A word stored at PC is the word the next fetch reads. -/
theorem fetchWordAt_storeAtPc {s : State} (h : s.pc.toNat ≤ 0xFFE) (op : Word) :
    fetchWordAt (s.storeAtPc op).mem s.pc.toNat = op := by
  have hp : ¬ s.pc.toNat > 0xFFE := by omega
  rw [State.storeAtPc, if_neg hp, fetchWordAt_eq]
  simp only [memGet_writeBytes, wordBytes, List.length_cons, List.length_nil]
  rw [if_pos (by omega), if_pos (by omega)]
  have h1 : s.pc.toNat + 1 - s.pc.toNat = 1 := by omega
  simp only [Nat.sub_self, h1, List.getD_cons_zero, List.getD_cons_succ]
  exact joinBytes_wordBytes op

/-- A timer's count in plain arithmetic: minus 1, clamped at 0. -/
theorem countDown_toNat (b : Byte) : (countDown b).toNat = b.toNat - 1 := by
  unfold countDown
  have := b.isLt
  split
  · rw [BitVec.toNat_sub]; simp; omega
  · omega

theorem flagByte_eq (c : Bool) : flagByte c = if c = true then 0x01 else 0x00 := rfl

/-- A return raises on an empty stack, pops a full or partly full one, and stops the model above 16. -/
theorem execRet_cases (s : State) :
    (s.sp.toNat = 0 ∧ execRet s = .next (s.latch .stackUnderflow (encode .ret) s.pc)) ∨
    (0 < s.sp.toNat ∧ s.sp.toNat ≤ 16 ∧ execRet s = .next (s.dropTop.setPc s.top)) ∨
    (16 < s.sp.toNat ∧ execRet s = .fault .stackPointerOutOfRange) := by
  by_cases h0 : s.sp = 0
  · exact .inl ⟨by rw [h0]; rfl, by rw [execRet, if_pos h0]; rfl⟩
  · have hp : 0 < s.sp.toNat := Nat.pos_of_ne_zero (fun e => h0 (BitVec.eq_of_toNat_eq e))
    by_cases h : s.sp.toNat ≤ Config.stackDepth
    · exact .inr (.inl ⟨hp, h, by rw [execRet, if_neg h0, if_pos h]⟩)
    · exact .inr (.inr ⟨Nat.lt_of_not_le h, by rw [execRet, if_neg h0, if_neg h]⟩)

/-- A call raises on a full stack, pushes onto any other, and stops the model above 16. -/
theorem execCall_cases (nnn : Addr12) (s : State) :
    (s.sp.toNat = 16 ∧ execCall nnn s = .next (s.latch .stackOverflow (encode (.call nnn)) s.pc)) ∨
    (s.sp.toNat < 16 ∧ execCall nnn s = .next ((s.push s.advance.pc).setPc (zextAddr nnn))) ∨
    (16 < s.sp.toNat ∧ execCall nnn s = .fault .stackPointerOutOfRange) := by
  by_cases h0 : s.sp = 16
  · exact .inl ⟨by rw [h0]; rfl, by rw [execCall, if_pos h0]; rfl⟩
  · have hp : s.sp.toNat ≠ 16 := fun e => h0 (BitVec.eq_of_toNat_eq e)
    by_cases h : s.sp.toNat < Config.stackDepth
    · exact .inr (.inl ⟨h, by rw [execCall, if_neg h0, if_pos h]⟩)
    · exact .inr (.inr ⟨Nat.lt_of_le_of_ne (Nat.le_of_not_lt h) hp.symm, by rw [execCall, if_neg h0, if_neg h]⟩)

/-- A block load either fits, and then fills the registers and advances PC, or raises. -/
theorem execLdVxMem_cases (x : Nibble) (s : State) :
    (s.i.toNat + x.toNat ≤ 0xFFF ∧
      execLdVxMem x s = .next (s.advance.setBlock 0 (readBytes s.mem s.i.toNat (x.toNat + 1)))) ∨
    (0xFFF < s.i.toNat + x.toNat ∧
      execLdVxMem x s = .next (s.latch .memAddrOutOfBounds (encode (.ldVxMem x)) (firstOutside s.i))) := by
  by_cases h : s.i.toNat + x.toNat ≤ 0xFFF
  · exact .inl ⟨h, by rw [execLdVxMem, memRead_of_fits (by omega)]⟩
  · exact .inr ⟨by omega, by rw [execLdVxMem, memRead_of_not_fits (by omega)]; rfl⟩

/-- A draw either fits, and then writes the framebuffer and VF and advances PC, or raises. -/
theorem execDrwVxVyN_cases (x y n : Nibble) (s : State) :
    ((n.toNat = 0 ∨ s.i.toNat + n.toNat ≤ 0x1000) ∧ ∃ drawn,
      drawn = drawSprite s.fb (s.getV x) (s.getV y) (readBytes s.mem s.i.toNat n.toNat) ∧
      execDrwVxVyN x y n s = .next ({ s.advance with fb := drawn.1 }.setV vF (flagByte drawn.2))) ∨
    (¬(n.toNat = 0 ∨ s.i.toNat + n.toNat ≤ 0x1000) ∧
      execDrwVxVyN x y n s = .next (s.latch .memAddrOutOfBounds (encode (.drwVxVyN x y n)) (firstOutside s.i))) := by
  by_cases h : n.toNat = 0 ∨ s.i.toNat + n.toNat ≤ 0x1000
  · exact .inl ⟨h, _, rfl, by rw [execDrwVxVyN, memRead_of_fits h]⟩
  · exact .inr ⟨h, by rw [execDrwVxVyN, memRead_of_not_fits h]; rfl⟩

/-- A run of one step more. -/
theorem run_succ (m : Nat) (s : State) :
    Host.Core.run Sys2Proof.core (m + 1) s =
      match step s with
      | .next t => Host.Core.run Sys2Proof.core m t
      | .fault r => .fault r
      | .refused r => .refused r := by
  have h := Host.Core.run.eq_2 Sys2Proof.core s m
  have e : Sys2Proof.core.step s = step s := rfl
  rw [e] at h
  rw [h]
  cases step s <;> rfl

end Sys2Proof.Machine
end

