-- ==== Sys2Proof/Laws/PerInstr.lean ====
section
/-! SUPPORT. Facts about each instruction as syntax, one lemma a constructor: its encoding bears the mask and the match
of its own row of the opcode table. -/

namespace Sys2Proof.Laws.EncodingBearsRow

/-- The row of the instruction is in the table and selects its word (30_encoding.md R44). -/
def Statement (i : Instr) : Prop := i.row ∈ opcodeTable ∧ i.row.selects (encode i) = true

theorem selects_NNN (d : Nibble) (nnn : Addr12) : formatNNN d nnn &&& 0xF000 = formatNNN d 0 := by
  apply BitVec.eq_of_getLsbD_eq
  intro j hj
  simp only [BitVec.getLsbD_and, formatNNN_getLsbD]
  interval_cases j <;> simp

theorem selects_XNN (d x : Nibble) (nn : Byte) : formatXNN d x nn &&& 0xF000 = formatXNN d 0 0 := by
  apply BitVec.eq_of_getLsbD_eq
  intro j hj
  simp only [BitVec.getLsbD_and, formatXNN_getLsbD]
  interval_cases j <;> simp

theorem selects_XFN (d x : Nibble) (nn : Byte) : formatXNN d x nn &&& 0xF0FF = formatXNN d 0 nn := by
  apply BitVec.eq_of_getLsbD_eq
  intro j hj
  simp only [BitVec.getLsbD_and, formatXNN_getLsbD]
  interval_cases j <;> simp

theorem selects_XY (d x y n : Nibble) : formatXYN d x y n &&& 0xF00F = formatXYN d 0 0 n := by
  apply BitVec.eq_of_getLsbD_eq
  intro j hj
  simp only [BitVec.getLsbD_and, formatXYN_getLsbD]
  interval_cases j <;> simp

theorem selects_XYN (d x y n : Nibble) : formatXYN d x y n &&& 0xF000 = formatXYN d 0 0 0 := by
  apply BitVec.eq_of_getLsbD_eq
  intro j hj
  simp only [BitVec.getLsbD_and, formatXYN_getLsbD]
  interval_cases j <;> simp

theorem nop : Statement .nop := ⟨by simp [opcodeTable], by decide⟩
theorem cls : Statement .cls := ⟨by simp [opcodeTable], by decide⟩
theorem ret : Statement .ret := ⟨by simp [opcodeTable], by decide⟩
theorem jp (nnn : Addr12) : Statement (.jp nnn) :=
  ⟨by simp [opcodeTable, Instr.row], by simp only [OpcodeRow.selects, Instr.row, encode, selects_NNN]; decide⟩
theorem call (nnn : Addr12) : Statement (.call nnn) :=
  ⟨by simp [opcodeTable, Instr.row], by simp only [OpcodeRow.selects, Instr.row, encode, selects_NNN]; decide⟩
theorem seVxNn (x : Nibble) (nn : Byte) : Statement (.seVxNn x nn) :=
  ⟨by simp [opcodeTable, Instr.row], by simp only [OpcodeRow.selects, Instr.row, encode, selects_XNN]; decide⟩
theorem sneVxNn (x : Nibble) (nn : Byte) : Statement (.sneVxNn x nn) :=
  ⟨by simp [opcodeTable, Instr.row], by simp only [OpcodeRow.selects, Instr.row, encode, selects_XNN]; decide⟩
theorem seVxVy (x y : Nibble) : Statement (.seVxVy x y) :=
  ⟨by simp [opcodeTable, Instr.row], by simp only [OpcodeRow.selects, Instr.row, encode, selects_XY]; decide⟩
theorem ldVxNn (x : Nibble) (nn : Byte) : Statement (.ldVxNn x nn) :=
  ⟨by simp [opcodeTable, Instr.row], by simp only [OpcodeRow.selects, Instr.row, encode, selects_XNN]; decide⟩
theorem addVxNn (x : Nibble) (nn : Byte) : Statement (.addVxNn x nn) :=
  ⟨by simp [opcodeTable, Instr.row], by simp only [OpcodeRow.selects, Instr.row, encode, selects_XNN]; decide⟩
theorem ldVxVy (x y : Nibble) : Statement (.ldVxVy x y) :=
  ⟨by simp [opcodeTable, Instr.row], by simp only [OpcodeRow.selects, Instr.row, encode, selects_XY]; decide⟩
theorem orVxVy (x y : Nibble) : Statement (.orVxVy x y) :=
  ⟨by simp [opcodeTable, Instr.row], by simp only [OpcodeRow.selects, Instr.row, encode, selects_XY]; decide⟩
theorem andVxVy (x y : Nibble) : Statement (.andVxVy x y) :=
  ⟨by simp [opcodeTable, Instr.row], by simp only [OpcodeRow.selects, Instr.row, encode, selects_XY]; decide⟩
theorem xorVxVy (x y : Nibble) : Statement (.xorVxVy x y) :=
  ⟨by simp [opcodeTable, Instr.row], by simp only [OpcodeRow.selects, Instr.row, encode, selects_XY]; decide⟩
theorem addVxVy (x y : Nibble) : Statement (.addVxVy x y) :=
  ⟨by simp [opcodeTable, Instr.row], by simp only [OpcodeRow.selects, Instr.row, encode, selects_XY]; decide⟩
theorem subVxVy (x y : Nibble) : Statement (.subVxVy x y) :=
  ⟨by simp [opcodeTable, Instr.row], by simp only [OpcodeRow.selects, Instr.row, encode, selects_XY]; decide⟩
theorem shrVx (x y : Nibble) : Statement (.shrVx x y) :=
  ⟨by simp [opcodeTable, Instr.row], by simp only [OpcodeRow.selects, Instr.row, encode, selects_XY]; decide⟩
theorem subnVxVy (x y : Nibble) : Statement (.subnVxVy x y) :=
  ⟨by simp [opcodeTable, Instr.row], by simp only [OpcodeRow.selects, Instr.row, encode, selects_XY]; decide⟩
theorem shlVx (x y : Nibble) : Statement (.shlVx x y) :=
  ⟨by simp [opcodeTable, Instr.row], by simp only [OpcodeRow.selects, Instr.row, encode, selects_XY]; decide⟩
theorem sneVxVy (x y : Nibble) : Statement (.sneVxVy x y) :=
  ⟨by simp [opcodeTable, Instr.row], by simp only [OpcodeRow.selects, Instr.row, encode, selects_XY]; decide⟩
theorem ldINnn (nnn : Addr12) : Statement (.ldINnn nnn) :=
  ⟨by simp [opcodeTable, Instr.row], by simp only [OpcodeRow.selects, Instr.row, encode, selects_NNN]; decide⟩
theorem jpV0Nnn (nnn : Addr12) : Statement (.jpV0Nnn nnn) :=
  ⟨by simp [opcodeTable, Instr.row], by simp only [OpcodeRow.selects, Instr.row, encode, selects_NNN]; decide⟩
theorem rndVxNn (x : Nibble) (nn : Byte) : Statement (.rndVxNn x nn) :=
  ⟨by simp [opcodeTable, Instr.row], by simp only [OpcodeRow.selects, Instr.row, encode, selects_XNN]; decide⟩
theorem drwVxVyN (x y n : Nibble) : Statement (.drwVxVyN x y n) :=
  ⟨by simp [opcodeTable, Instr.row], by simp only [OpcodeRow.selects, Instr.row, encode, selects_XYN]; decide⟩
theorem skpVx (x : Nibble) : Statement (.skpVx x) :=
  ⟨by simp [opcodeTable, Instr.row], by simp only [OpcodeRow.selects, Instr.row, encode, selects_XFN]; decide⟩
theorem sknpVx (x : Nibble) : Statement (.sknpVx x) :=
  ⟨by simp [opcodeTable, Instr.row], by simp only [OpcodeRow.selects, Instr.row, encode, selects_XFN]; decide⟩
theorem ldVxDt (x : Nibble) : Statement (.ldVxDt x) :=
  ⟨by simp [opcodeTable, Instr.row], by simp only [OpcodeRow.selects, Instr.row, encode, selects_XFN]; decide⟩
theorem ldVxK (x : Nibble) : Statement (.ldVxK x) :=
  ⟨by simp [opcodeTable, Instr.row], by simp only [OpcodeRow.selects, Instr.row, encode, selects_XFN]; decide⟩
theorem ldDtVx (x : Nibble) : Statement (.ldDtVx x) :=
  ⟨by simp [opcodeTable, Instr.row], by simp only [OpcodeRow.selects, Instr.row, encode, selects_XFN]; decide⟩
theorem ldStVx (x : Nibble) : Statement (.ldStVx x) :=
  ⟨by simp [opcodeTable, Instr.row], by simp only [OpcodeRow.selects, Instr.row, encode, selects_XFN]; decide⟩
theorem addIVx (x : Nibble) : Statement (.addIVx x) :=
  ⟨by simp [opcodeTable, Instr.row], by simp only [OpcodeRow.selects, Instr.row, encode, selects_XFN]; decide⟩
theorem ldFVx (x : Nibble) : Statement (.ldFVx x) :=
  ⟨by simp [opcodeTable, Instr.row], by simp only [OpcodeRow.selects, Instr.row, encode, selects_XFN]; decide⟩
theorem ldBVx (x : Nibble) : Statement (.ldBVx x) :=
  ⟨by simp [opcodeTable, Instr.row], by simp only [OpcodeRow.selects, Instr.row, encode, selects_XFN]; decide⟩
theorem ldMemVx (x : Nibble) : Statement (.ldMemVx x) :=
  ⟨by simp [opcodeTable, Instr.row], by simp only [OpcodeRow.selects, Instr.row, encode, selects_XFN]; decide⟩
theorem ldVxMem (x : Nibble) : Statement (.ldVxMem x) :=
  ⟨by simp [opcodeTable, Instr.row], by simp only [OpcodeRow.selects, Instr.row, encode, selects_XFN]; decide⟩

end Sys2Proof.Laws.EncodingBearsRow
end

