-- ==== Sys2Proof/Laws/Sprite.lean ====
section
/-! SUPPORT. The XOR-sprite unit (44_display.md R79): which pixels a sprite covers, that it covers none twice, and what
the unit leaves in the framebuffer and the collision bit. -/

namespace Sys2Proof.Machine

/-- What a list of touched pixels, none twice, leaves: those pixels flipped, and a hit when one of them was on. -/
theorem foldl_touchPixel (ps : List (BitVec 6 × BitVec 5)) : ∀ (fb : Framebuffer) (hit : Bool), ps.Nodup →
    (∀ c r, fbGet (ps.foldl touchPixel (fb, hit)).1 c r = if (c, r) ∈ ps then !fbGet fb c r else fbGet fb c r) ∧
    (ps.foldl touchPixel (fb, hit)).2 = (hit || ps.any (fun p => fbGet fb p.1 p.2)) := by
  induction ps with
  | nil => intro fb hit _; simp
  | cons p ps ih =>
    intro fb hit hnd
    obtain ⟨hp, hnd⟩ := List.nodup_cons.1 hnd
    obtain ⟨h1, h2⟩ := ih (fbFlip fb p.1 p.2) (hit || fbGet fb p.1 p.2) hnd
    simp only [List.foldl_cons, touchPixel]
    refine ⟨fun c r => ?_, ?_⟩
    · rw [h1 c r, fbGet_fbFlip]
      by_cases hc : (c, r) = p
      · subst hc; simp [hp]
      · have hne : ¬(c = p.1 ∧ r = p.2) := fun e => hc (Prod.ext e.1 e.2)
        simp [hc, hne]
    · rw [h2]
      have hany : ps.any (fun q => fbGet (fbFlip fb p.1 p.2) q.1 q.2) = ps.any (fun q => fbGet fb q.1 q.2) := by
        rw [Bool.eq_iff_iff, List.any_eq_true, List.any_eq_true]
        refine exists_congr fun q => and_congr_right fun hq => ?_
        have hne : ¬(q.1 = p.1 ∧ q.2 = p.2) := fun e => hp (by rwa [← Prod.ext e.1 e.2])
        rw [fbGet_fbFlip, if_neg hne]
      rw [hany, List.any_cons, Bool.or_assoc]

theorem mem_rowPixels {vx vy r : Nat} {row : Byte} {p : BitVec 6 × BitVec 5} :
    p ∈ rowPixels vx vy r row ↔
      ∃ c, c < 8 ∧ row.getLsbD (7 - c) = true ∧ p = (spriteCol vx c, spriteRow vy r) := by
  simp only [rowPixels, List.mem_map, List.mem_filter, List.mem_range]
  constructor
  · rintro ⟨c, ⟨h8, hb⟩, rfl⟩; exact ⟨c, h8, hb, rfl⟩
  · rintro ⟨c, h8, hb, rfl⟩; exact ⟨c, ⟨h8, hb⟩, rfl⟩

/-- A sprite covers a pixel when a set bit of one of its rows falls on it. -/
theorem mem_spritePixels (rows : List Byte) : ∀ {vx vy r : Nat} {p : BitVec 6 × BitVec 5},
    p ∈ spritePixels vx vy r rows ↔ ∃ k, k < rows.length ∧ ∃ c, c < 8 ∧
      (rows.getD k 0).getLsbD (7 - c) = true ∧ p = (spriteCol vx c, spriteRow vy (r + k)) := by
  induction rows with
  | nil => simp [spritePixels]
  | cons row rows ih =>
    intro vx vy r p
    simp only [spritePixels, List.mem_append, mem_rowPixels, ih, List.length_cons]
    constructor
    · rintro (⟨c, h8, hb, rfl⟩ | ⟨k, hk, c, h8, hb, rfl⟩)
      · exact ⟨0, by omega, c, h8, by simpa using hb, rfl⟩
      · exact ⟨k + 1, by omega, c, h8, by simpa using hb, by rw [show r + (k + 1) = r + 1 + k by omega]⟩
    · rintro ⟨k, hk, c, h8, hb, rfl⟩
      cases k with
      | zero => exact .inl ⟨c, h8, by simpa using hb, rfl⟩
      | succ k =>
        exact .inr ⟨k, by omega, c, h8, by simpa using hb, by rw [show r + (k + 1) = r + 1 + k by omega]⟩

theorem spriteCol_inj {vx c d : Nat} (hc : c < 8) (hd : d < 8) (h : spriteCol vx c = spriteCol vx d) : c = d := by
  have := congrArg BitVec.toNat h
  simp only [spriteCol, BitVec.toNat_ofNat] at this
  omega

theorem spriteRow_inj {vy r q : Nat} (hr : r < 32) (hq : q < 32) (h : spriteRow vy r = spriteRow vy q) : r = q := by
  have := congrArg BitVec.toNat h
  simp only [spriteRow, BitVec.toNat_ofNat] at this
  omega

theorem rowPixels_nodup (vx vy r : Nat) (row : Byte) : (rowPixels vx vy r row).Nodup := by
  unfold rowPixels
  refine List.Nodup.map_on ?_ (List.nodup_range.filter _)
  intro c hc d hd h
  simp only [List.mem_filter, List.mem_range] at hc hd
  exact spriteCol_inj hc.1 hd.1 (Prod.ext_iff.1 h).1

/-- "No pixel is touched twice in one draw" (R79, corner case 5). -/
theorem spritePixels_nodup (rows : List Byte) : ∀ {vx vy r : Nat}, r + rows.length ≤ 32 →
    (spritePixels vx vy r rows).Nodup := by
  induction rows with
  | nil => intro vx vy r _; exact List.nodup_nil
  | cons row rows ih =>
    intro vx vy r h
    simp only [List.length_cons] at h
    refine List.Nodup.append (rowPixels_nodup vx vy r row) (ih (by omega)) ?_
    intro p hp hq
    obtain ⟨c, _, _, rfl⟩ := mem_rowPixels.1 hp
    obtain ⟨k, hk, d, _, _, he⟩ := (mem_spritePixels rows).1 hq
    have := spriteRow_inj (by omega) (by omega) (Prod.ext_iff.1 he).2
    omega

/-- What the XOR-sprite unit does to a pixel. -/
theorem fbGet_drawSprite (fb : Framebuffer) (vx vy : Byte) {rows : List Byte} (h : rows.length ≤ 32)
    (c : BitVec 6) (r : BitVec 5) :
    fbGet (drawSprite fb vx vy rows).1 c r =
      if (c, r) ∈ spritePixels vx.toNat vy.toNat 0 rows then !fbGet fb c r else fbGet fb c r :=
  (foldl_touchPixel _ fb false (spritePixels_nodup rows (by omega))).1 c r

/-- The collision bit of the XOR-sprite unit: a covered pixel was on. -/
theorem drawSprite_hit (fb : Framebuffer) (vx vy : Byte) {rows : List Byte} (h : rows.length ≤ 32) :
    (drawSprite fb vx vy rows).2 = true ↔
      ∃ p ∈ spritePixels vx.toNat vy.toNat 0 rows, fbGet fb p.1 p.2 = true := by
  have := (foldl_touchPixel _ fb false (spritePixels_nodup rows (vx := vx.toNat) (vy := vy.toNat) (r := 0) (by omega))).2
  rw [drawSprite, this]
  simp [List.any_eq_true]

end Sys2Proof.Machine
end

