-- ==== Sys2Proof/Tests/Slice0.lean ====
section
/-! SUPPORT. Tests. The expected results are the spec's own: the vectors V-... and examples E... of
95_test_vectors.md and the examples of the rules; each theorem names its source. Each is about one step (or one host
operation) on a small state. The last part holds, for every statement with hypotheses, a concrete state and operands
that meet them all. -/

namespace Sys2Proof.Tests

open Sys2Proof Sys2Proof.Machine

/-! ### Helpers -/

/-- The reset state with PC at `a` and the word `op` stored there, the start state of the vectors. -/
def at_ (a : Word) (op : Word) : State :=
  { State.reset with pc := a, mem := writeBytes [] a.toNat (wordBytes op) }

/-- The start state of most vectors: the word at 0x200. -/
def word (op : Word) : State := at_ 0x200 op

/-- The state with bytes stored at an address. -/
def poke (a : Nat) (bytes : List Byte) (s : State) : State := { s with mem := writeBytes s.mem a bytes }

/-- The framebuffer with just the pixels at the given places `k = col + 64*row` on: row `r` is a sum of powers of two. -/
def fbOf (ks : List Nat) : Framebuffer :=
  Vector.ofFn (fun r => BitVec.ofNat 64 ((ks.filter (fun k => k / 64 == r.val)).map (fun k => 2 ^ (k % 64))).sum)

/-- The state with just these pixels on. -/
def lit (ks : List Nat) (s : State) : State := { s with fb := fbOf ks }

/-- One step answers a next state with the property. -/
def after (s : State) (p : State → Bool) : Bool :=
  match step s with
  | .next t => p t
  | .fault _ => false
  | .refused _ => false

/-- One step latches exactly this fault and leaves the rest of the state as it was. -/
def faults (s : State) (cause : FaultCause) (opcode addr : Word) : Bool :=
  after s (fun t => decide (t = { s with fault := ⟨cause, opcode, addr⟩ }))

/-- One operation answers a next state and a result with the property. -/
def afterOp (op : Operation) (s : State) (p : State → Response → Bool) : Bool :=
  match perform op s with
  | .next (t, r) => p t r
  | .fault _ => false
  | .refused _ => false

/-! ### Well-formedness: a word of each pattern of 30_encoding.md R45 is refused -/

theorem test_wellformed_refuses_family0 :
    wordWellFormed 0x0001 = false ∧ wordWellFormed 0x0100 = false ∧ wordWellFormed 0x00E1 = false ∧
    wordWellFormed 0x00FD = false := by decide
theorem test_wellformed_refuses_family5 : wordWellFormed 0x5AB1 = false ∧ wordWellFormed 0x500F = false := by decide
theorem test_wellformed_refuses_family8 :
    wordWellFormed 0x8AB8 = false ∧ wordWellFormed 0x8ABD = false ∧ wordWellFormed 0x8ABF = false := by decide
theorem test_wellformed_refuses_family9 : wordWellFormed 0x9AB1 = false ∧ wordWellFormed 0x900F = false := by decide
theorem test_wellformed_refuses_familyE : wordWellFormed 0xE09F = false ∧ wordWellFormed 0xE000 = false := by decide
theorem test_wellformed_refuses_familyF : wordWellFormed 0xF175 = false ∧ wordWellFormed 0xF000 = false := by decide
theorem test_wellformed_accepts :
    wordWellFormed 0x0000 = true ∧ wordWellFormed 0x00E0 = true ∧ wordWellFormed 0x8FFE = true ∧
    wordWellFormed 0xEFA1 = true ∧ wordWellFormed 0xFF65 = true := by decide

/-! ### Decoding: every constructor from a word written out from the formats of 30_encoding.md R41, R42 and the
`match` of its rule, bit 15 on the left, with fields no two of which are equal -/

theorem test_decode_fixed :
    decodeWord 0b0000000000000000 = .ok .nop ∧ decodeWord 0b0000000011100000 = .ok .cls ∧
    decodeWord 0b0000000011101110 = .ok .ret := by decide
/-- Format NNN: opcode, then `nnn` = 0xABC. -/
theorem test_decode_nnn :
    decodeWord 0b0001101010111100 = .ok (.jp 0xABC) ∧ decodeWord 0b0010101010111100 = .ok (.call 0xABC) ∧
    decodeWord 0b1010101010111100 = .ok (.ldINnn 0xABC) ∧ decodeWord 0b1011101010111100 = .ok (.jpV0Nnn 0xABC) := by
  decide
/-- Format XNN: opcode, then `x` = 0xA, then `nn` = 0x42. -/
theorem test_decode_xnn :
    decodeWord 0b0011101001000010 = .ok (.seVxNn 0xA 0x42) ∧ decodeWord 0b0100101001000010 = .ok (.sneVxNn 0xA 0x42) ∧
    decodeWord 0b0110101001000010 = .ok (.ldVxNn 0xA 0x42) ∧ decodeWord 0b0111101001000010 = .ok (.addVxNn 0xA 0x42) ∧
    decodeWord 0b1100101001000010 = .ok (.rndVxNn 0xA 0x42) := by decide
/-- Format XY: opcode, then `x` = 0xA, then `y` = 0xB, then the function. -/
theorem test_decode_xy :
    decodeWord 0b0101101010110000 = .ok (.seVxVy 0xA 0xB) ∧ decodeWord 0b1001101010110000 = .ok (.sneVxVy 0xA 0xB) ∧
    decodeWord 0b1000101010110000 = .ok (.ldVxVy 0xA 0xB) ∧ decodeWord 0b1000101010110001 = .ok (.orVxVy 0xA 0xB) ∧
    decodeWord 0b1000101010110010 = .ok (.andVxVy 0xA 0xB) ∧ decodeWord 0b1000101010110011 = .ok (.xorVxVy 0xA 0xB) := by
  decide
theorem test_decode_xy_flags :
    decodeWord 0b1000101010110100 = .ok (.addVxVy 0xA 0xB) ∧ decodeWord 0b1000101010110101 = .ok (.subVxVy 0xA 0xB) ∧
    decodeWord 0b1000101010110110 = .ok (.shrVx 0xA 0xB) ∧ decodeWord 0b1000101010110111 = .ok (.subnVxVy 0xA 0xB) ∧
    decodeWord 0b1000101010111110 = .ok (.shlVx 0xA 0xB) := by decide
/-- Format XYN: opcode D, `x` = 0xA, `y` = 0xB, `n` = 0xC. -/
theorem test_decode_xyn : decodeWord 0b1101101010111100 = .ok (.drwVxVyN 0xA 0xB 0xC) := by decide
/-- Format XFN of family E: `x` = 0xA, then 9E or A1. -/
theorem test_decode_xfn_e :
    decodeWord 0b1110101010011110 = .ok (.skpVx 0xA) ∧ decodeWord 0b1110101010100001 = .ok (.sknpVx 0xA) := by decide
/-- Format XFN of family F: `x` = 0xA, then 07, 0A, 15, 18, 1E. -/
theorem test_decode_xfn_f_timer :
    decodeWord 0b1111101000000111 = .ok (.ldVxDt 0xA) ∧ decodeWord 0b1111101000001010 = .ok (.ldVxK 0xA) ∧
    decodeWord 0b1111101000010101 = .ok (.ldDtVx 0xA) ∧ decodeWord 0b1111101000011000 = .ok (.ldStVx 0xA) ∧
    decodeWord 0b1111101000011110 = .ok (.addIVx 0xA) := by decide
/-- Format XFN of family F: `x` = 0xA, then 29, 33, 55, 65. -/
theorem test_decode_xfn_f_memory :
    decodeWord 0b1111101000101001 = .ok (.ldFVx 0xA) ∧ decodeWord 0b1111101000110011 = .ok (.ldBVx 0xA) ∧
    decodeWord 0b1111101001010101 = .ok (.ldMemVx 0xA) ∧ decodeWord 0b1111101001100101 = .ok (.ldVxMem 0xA) := by decide
/-- Bytes: the byte at the lower address is the high byte (20_memory.md R28); one byte is no instruction (R40). -/
theorem test_decode_bytes :
    decode [0x22, 0x08, 0xF2] = .ok (.call 0x208, [0xF2]) ∧ decode [0x22] = .error .truncated ∧ decode [] = .error .truncated ∧
    decode [0xFF, 0xFF] = .error (.unimplementedOpcode 0xFFFF) := by decide
/-- The table's bit numbering: bit 15 is the most significant bit of the word. -/
theorem test_decodeTableWord :
    decodeTableWord 16 0x8014 = some (.addVxVy 0 1) ∧ decodeTableWord 16 0x1ABC = some (.jp 0xABC) ∧
    decodeTableWord 16 0xFFFF = none := by decide

/-! ### Placing and fetching an instruction -/

/-- `withFetchWord` from reset: the next step runs it. -/
theorem test_withFetchWord :
    after (State.reset.withFetchWord 16 0x1ABC) (fun t => t.pc == 0xABC) = true ∧
    after (State.reset.withFetchWord 16 0xA23A) (fun t => t.i == 0x23A && t.pc == 0x202) = true := by decide
/-- E1, ticks 1 and 3 (`LD V0, 0x0A` and `ADD V0, V1` at 0x204). -/
theorem test_e1_add_program :
    after (word 0x600A) (fun t => t.getV 0 == 0x0A && t.pc == 0x202) = true ∧
    after (((at_ 0x204 0x8014).setV 0 0x0A).setV 1 0x05)
      (fun t => t.getV 0 == 0x0F && t.getV 15 == 0x00 && t.pc == 0x206) = true := by decide
/-- V-CTL-4, V-FLT-3: an odd address is fetched like any other, and 0xFFE is the last legal one. -/
theorem test_fetch_odd_and_last :
    after (at_ 0x203 0x6A7F) (fun t => t.getV 0xA == 0x7F && t.pc == 0x205) = true ∧
    after (at_ 0xFFE 0x0000) (fun t => t.pc == 0x1000) = true := by decide
/-- V-FLT-1, V-FLT-2, V-FLT-8: the fetch fault comes before decode and records no word. -/
theorem test_fetch_fault :
    faults (poke 0xFFF [0xFF] { State.reset with pc := 0x0FFF }) .fetchOutOfBounds 0x0000 0x0FFF = true ∧
    faults { State.reset with pc := 0x1000 } .fetchOutOfBounds 0x0000 0x1000 = true ∧
    faults { State.reset with pc := 0x10FE } .fetchOutOfBounds 0x0000 0x10FE = true := by decide
/-- V-FLT-4, V-FLT-5, V-SKP-14. -/
theorem test_unimplemented_fault :
    faults (word 0xFFFF) .unimplementedOpcode 0xFFFF 0x200 = true ∧ faults (word 0x0001) .unimplementedOpcode 0x0001 0x200 = true ∧
    faults (word 0x5AB1) .unimplementedOpcode 0x5AB1 0x200 = true ∧ faults (word 0xE09F) .unimplementedOpcode 0xE09F 0x200 = true ∧
    faults (word 0xF175) .unimplementedOpcode 0xF175 0x200 = true := by decide

/-! ### Control transfer -/

/-- V-CTL-1. -/
theorem test_nop : after (word 0x0000) (fun t => decide (t = { word 0x0000 with pc := 0x202 })) = true := by decide
/-- V-CTL-2, V-CTL-5. -/
theorem test_jp : after (word 0x1ABC) (fun t => t.pc == 0x0ABC) = true ∧ after (word 0x1FFF) (fun t => t.pc == 0x0FFF) = true := by
  decide
/-- V-CTL-3: a self-jump changes nothing. -/
theorem test_jp_self : after (word 0x1200) (fun t => decide (t = word 0x1200)) = true := by decide
/-- V-CTL-7, V-CTL-9: the sixteenth entry fits; a call at the top of memory pushes 0x1000. -/
theorem test_call :
    after { at_ 0x2F0 0x2300 with sp := 15 } (fun t => t.slot 15 == 0x02F2 && t.sp == 16 && t.pc == 0x300) = true ∧
    after (at_ 0xFFE 0x2300) (fun t => t.slot 0 == 0x1000 && t.sp == 1 && t.pc == 0x300) = true := by decide
/-- V-CTL-8. -/
theorem test_call_full : faults { at_ 0x2F0 0x2300 with sp := 16 } .stackOverflow 0x2300 0x02F0 = true := by decide
/-- V-CTL-10: the popped slot keeps its value. -/
theorem test_ret :
    after ({ ((at_ 0x300 0x00EE).setSlot 0 0x0202).setSlot 1 0x0456 with sp := 2 })
      (fun t => t.sp == 1 && t.pc == 0x0456 && t.slot 1 == 0x0456 && t.slot 0 == 0x0202) = true := by decide
/-- V-CTL-11. -/
theorem test_ret_empty : faults ((at_ 0x300 0x00EE).setSlot 0 0x0202) .stackUnderflow 0x00EE 0x0300 = true := by decide
/-- V-CTL-13, V-CTL-14: register 0, and no reduction. -/
theorem test_jp_v0 :
    after (((word 0xB234).setV 0 0x01).setV 2 0x80) (fun t => t.pc == 0x0235) = true ∧
    after ((word 0xBFFF).setV 0 0xFF) (fun t => t.pc == 0x10FE) = true := by decide

/-! ### Skips -/

/-- V-SKP-1, V-SKP-2. -/
theorem test_se_immediate :
    after ((word 0x3A42).setV 0xA 0x42) (fun t => t.pc == 0x204) = true ∧
    after ((word 0x3A42).setV 0xA 0x43) (fun t => t.pc == 0x202) = true := by decide
/-- V-SKP-12, V-SKP-13: the skipped word is not decoded; a skip at the top of memory does not fault. -/
theorem test_se_skips_anything :
    after (poke 0x202 [0xFF, 0xFF] (word 0x3000)) (fun t => t.pc == 0x204 && decide (t.fault = FaultRecord.clear)) = true ∧
    after (at_ 0xFFE 0x3000) (fun t => t.pc == 0x1002 && decide (t.fault = FaultRecord.clear)) = true := by decide
/-- V-SKP-3, V-SKP-4. -/
theorem test_sne_immediate :
    after ((word 0x4A42).setV 0xA 0x42) (fun t => t.pc == 0x202) = true ∧
    after ((word 0x4A42).setV 0xA 0x43) (fun t => t.pc == 0x204) = true := by decide
/-- V-SKP-5, V-SKP-6, V-SKP-9. -/
theorem test_se_register :
    after (((word 0x5AB0).setV 0xA 0x07).setV 0xB 0x07) (fun t => t.pc == 0x204) = true ∧
    after (((word 0x5AB0).setV 0xA 0x07).setV 0xB 0x08) (fun t => t.pc == 0x202) = true ∧
    after ((word 0x5330).setV 3 0x99) (fun t => t.pc == 0x204) = true := by decide
/-- V-SKP-7, V-SKP-8, V-SKP-10. -/
theorem test_sne_register :
    after (((word 0x9AB0).setV 0xA 0x07).setV 0xB 0x07) (fun t => t.pc == 0x202) = true ∧
    after (((word 0x9AB0).setV 0xA 0x07).setV 0xB 0x08) (fun t => t.pc == 0x204) = true ∧
    after ((word 0x9330).setV 3 0x99) (fun t => t.pc == 0x202) = true := by decide

/-! ### Registers and arithmetic -/

/-- V-ALU-1, V-ALU-2. -/
theorem test_ld_immediate :
    after (word 0x6A7F) (fun t => t.getV 0xA == 0x7F && t.pc == 0x202) = true ∧
    after (word 0x6F99) (fun t => t.getV 0xF == 0x99) = true := by decide
/-- V-ALU-3, V-ALU-25. -/
theorem test_add_immediate :
    after (((word 0x7A01).setV 0xA 0xFF).setV 0xF 0x55) (fun t => t.getV 0xA == 0x00 && t.getV 0xF == 0x55) = true ∧
    after ((word 0x7F01).setV 0xF 0xFF) (fun t => t.getV 0xF == 0x00) = true := by decide
/-- V-ALU-5. -/
theorem test_ld_register :
    after (((word 0x8AB0).setV 0xA 0x01).setV 0xB 0x37) (fun t => t.getV 0xA == 0x37 && t.getV 0xB == 0x37) = true := by decide
/-- V-ALU-6. -/
theorem test_or :
    after ((((word 0x8AB1).setV 0xA 0xF0).setV 0xB 0x0F).setV 0xF 0x55)
      (fun t => t.getV 0xA == 0xFF && t.getV 0xB == 0x0F && t.getV 0xF == 0x55) = true := by decide
/-- V-ALU-7. -/
theorem test_and :
    after ((((word 0x8AB2).setV 0xA 0xF0).setV 0xB 0x3C).setV 0xF 0x55)
      (fun t => t.getV 0xA == 0x30 && t.getV 0xF == 0x55) = true := by decide
/-- V-ALU-8. -/
theorem test_xor :
    after ((((word 0x8AB3).setV 0xA 0xF0).setV 0xB 0x3C).setV 0xF 0x55)
      (fun t => t.getV 0xA == 0xCC && t.getV 0xF == 0x55) = true := by decide
/-- V-ALU-10, V-ALU-11. -/
theorem test_add :
    after (((word 0x8AB4).setV 0xA 0xFF).setV 0xB 0x01) (fun t => t.getV 0xA == 0x00 && t.getV 0xF == 0x01) = true ∧
    after ((((word 0x8AB4).setV 0xA 0x80).setV 0xB 0x7F).setV 0xF 0x01) (fun t => t.getV 0xA == 0xFF && t.getV 0xF == 0x00) = true := by
  decide
/-- V-ALU-19, V-ALU-24 [D6]. -/
theorem test_add_vf :
    after (((word 0x8F14).setV 0xF 0x10).setV 1 0x20) (fun t => t.getV 0xF == 0x00) = true ∧
    after (((word 0x81F4).setV 0xF 0x01).setV 1 0xFF) (fun t => t.getV 1 == 0x00 && t.getV 0xF == 0x01) = true := by decide
/-- V-ALU-14, V-ALU-15. -/
theorem test_sub :
    after ((((word 0x8AB5).setV 0xA 0x05).setV 0xB 0x0A).setV 0xF 0x01) (fun t => t.getV 0xA == 0xFB && t.getV 0xF == 0x00) = true ∧
    after (((word 0x8AB5).setV 0xA 0x33).setV 0xB 0x33) (fun t => t.getV 0xA == 0x00 && t.getV 0xF == 0x01) = true := by decide
/-- V-ALU-20 [D6], V-ALU-24. -/
theorem test_sub_vf :
    after (((word 0x8F15).setV 0xF 0x05).setV 1 0x0A) (fun t => t.getV 0xF == 0x00) = true ∧
    after (((word 0x81F5).setV 0xF 0x01).setV 1 0x00) (fun t => t.getV 1 == 0xFF && t.getV 0xF == 0x00) = true := by decide
/-- V-ALU-16, V-ALU-17. -/
theorem test_subn :
    after (((word 0x8AB7).setV 0xA 0x05).setV 0xB 0x0A)
      (fun t => t.getV 0xA == 0x05 && t.getV 0xB == 0x0A && t.getV 0xF == 0x01) = true ∧
    after ((((word 0x8AB7).setV 0xA 0x0A).setV 0xB 0x05).setV 0xF 0x01) (fun t => t.getV 0xA == 0xFB && t.getV 0xF == 0x00) = true := by
  decide
/-- V-ALU-22 [D6]. -/
theorem test_subn_vf :
    after (((word 0x8F17).setV 0xF 0x05).setV 1 0x0A) (fun t => t.getV 0xF == 0x01) = true ∧
    after (((word 0x8F17).setV 0xF 0x0A).setV 1 0x05) (fun t => t.getV 0xF == 0x00) = true := by decide
/-- V-ALU-18, V-ALU-21 [D6]. -/
theorem test_shr :
    after (((word 0x8AB6).setV 0xA 0x05).setV 0xB 0xEE)
      (fun t => t.getV 0xA == 0x02 && t.getV 0xB == 0xEE && t.getV 0xF == 0x01) = true ∧
    after ((word 0x8F06).setV 0xF 0x02) (fun t => t.getV 0xF == 0x00) = true := by decide
/-- V-ALU-18, V-ALU-23 [D6]. -/
theorem test_shl :
    after ((word 0x8ABE).setV 0xA 0x81) (fun t => t.getV 0xA == 0x02 && t.getV 0xF == 0x01) = true ∧
    after ((word 0x8F0E).setV 0xF 0x7F) (fun t => t.getV 0xF == 0x00) = true := by decide
/-- V-ALU-27: a zero mask gives 0 whatever the byte drawn. -/
theorem test_rnd_zero_mask :
    ∃ t, exec (.rndVxNn 0xA 0x00) ((word 0xCA00).setV 0xA 0x77) = .next t ∧ t.getV 0xA = 0x00 :=
  ⟨_, rfl, by simp⟩
/-- 42_alu.md R70: one byte is requested, PC advances and no other register changes. -/
theorem test_rnd_one_draw :
    after ((word 0xCAFF).setV 0xF 0x55) (fun t => t.pc == 0x202 && t.draws == 1 && t.getV 0xF == 0x55) = true := by decide

/-! ### The address register and memory -/

/-- V-MEM-1. -/
theorem test_ld_i : after { word 0xA23A with i := 0xFFFF } (fun t => t.i == 0x023A && t.pc == 0x202) = true := by decide
/-- V-MEM-4, V-MEM-5. -/
theorem test_add_i :
    after ({ word 0xF21E with i := 0x0FFF }.setV 2 0x01) (fun t => t.i == 0x1000 && t.getV 0xF == 0x00) = true ∧
    after ({ word 0xF21E with i := 0xFFFF }.setV 2 0x01) (fun t => t.i == 0x0000 && t.getV 0xF == 0x00) = true := by decide
/-- V-MEM-6, V-MEM-7. -/
theorem test_ld_f :
    after ((word 0xF029).setV 0 0x0A) (fun t => t.i == 0x0032) = true ∧
    after ((word 0xF029).setV 0 0xFF) (fun t => t.i == 0x04FB) = true := by decide
/-- V-MEM-11, V-MEM-12. -/
theorem test_bcd_top :
    after ({ word 0xF333 with i := 0x0FFD }.setV 3 0x7B)
      (fun t => readBytes t.mem 0xFFD 3 == [0x01, 0x02, 0x03] && t.i == 0x0FFD) = true ∧
    faults ({ word 0xF333 with i := 0x0FFE }.setV 3 0x7B) .memAddrOutOfBounds 0xF333 0x1000 = true ∧
    faults ({ word 0xF333 with i := 0x1234 }.setV 3 0x7B) .memAddrOutOfBounds 0xF333 0x1234 = true := by decide
/-- V-MEM-9, V-MEM-13: old bytes are replaced; the store may fall on the instruction itself. -/
theorem test_bcd_digits :
    after (poke 0x300 [9, 9, 9, 9] ({ word 0xF333 with i := 0x0300 }.setV 3 0xFF))
      (fun t => readBytes t.mem 0x300 4 == [0x02, 0x05, 0x05, 0x09]) = true ∧
    after ({ word 0xF033 with i := 0x0200 }.setV 0 0xAB)
      (fun t => readBytes t.mem 0x200 4 == [0x01, 0x07, 0x01, 0x00] && t.pc == 0x202) = true := by decide
/-- V-MEM-14. -/
theorem test_block_store :
    after (((((({ word 0xF255 with i := 0x0300 }).setV 0 0x11).setV 1 0x22).setV 2 0x33).setV 3 0x44))
      (fun t => readBytes t.mem 0x300 4 == [0x11, 0x22, 0x33, 0x00] && t.i == 0x0300) = true := by decide
/-- V-MEM-15, V-MEM-16. -/
theorem test_block_store_top :
    after ({ word 0xF055 with i := 0x0FFF }.setV 0 0xAB) (fun t => memGet t.mem 0xFFF == 0xAB) = true ∧
    faults (({ word 0xF155 with i := 0x0FFF }.setV 0 0xAB).setV 1 0xCD) .memAddrOutOfBounds 0xF155 0x1000 = true := by decide
/-- V-MEM-18. -/
theorem test_block_load :
    after (poke 0x300 [1, 5, 6, 7] { word 0xF265 with i := 0x0300, v := Vector.replicate 16 0xEE })
      (fun t => t.getV 0 == 1 && t.getV 1 == 5 && t.getV 2 == 6 && t.getV 3 == 0xEE && t.i == 0x0300) = true := by decide
/-- V-MEM-19 (with the default FONT), V-MEM-20. -/
theorem test_block_load_font_and_top :
    after (word 0xFF65) (fun t => t.v.toList == [0xF0, 0x90, 0x90, 0x90, 0xF0, 0x20, 0x60, 0x20, 0x20, 0x70, 0xF0, 0x10, 0xF0, 0x80, 0xF0, 0xF0]) = true ∧
    faults (poke 0xFFF [0x77] { word 0xF165 with i := 0x0FFF }) .memAddrOutOfBounds 0xF165 0x1000 = true := by decide

/-! ### Display -/

/-- V-DRW-14. -/
theorem test_cls :
    after ((lit [0, 5, 2047] (word 0x00E0)).setV 0xF 0x55) (fun t => t.fb == fbOf [] && t.getV 0xF == 0x55) = true := by decide
/-- V-DRW-1: wrap-around in both directions. -/
theorem test_draw_wraps :
    after (poke 0x20C [0xC3, 0x81] (({ word 0xD012 with i := 0x20C }.setV 0 60).setV 1 31))
      (fun t => t.fb == fbOf [3, 60, 1986, 1987, 2044, 2045] && t.getV 0xF == 0x00 && t.pc == 0x202) = true := by decide
/-- V-DRW-7 (first tick), V-DRW-8, V-DRW-9 [D6]. -/
theorem test_draw_collision :
    after (poke 0x300 [0xA0, 0x40] (lit [0, 2, 65, 100] { word 0xD012 with i := 0x300 }))
      (fun t => t.fb == fbOf [100] && t.getV 0xF == 0x01) = true ∧
    after (poke 0x300 [0xC0] (lit [1] { word 0xD011 with i := 0x300 })) (fun t => t.fb == fbOf [0] && t.getV 0xF == 0x01) = true ∧
    after (poke 0x300 [0x80] ({ word 0xDFF1 with i := 0x300 }.setV 0xF 0x03)) (fun t => t.fb == fbOf [195] && t.getV 0xF == 0x00) = true := by
  decide
/-- V-DRW-4 [D9], V-DRW-10. -/
theorem test_draw_extent :
    after ({ word 0xD010 with i := 0xFFFF }.setV 0xF 0x55) (fun t => t.fb == fbOf [] && t.getV 0xF == 0x00) = true ∧
    after (poke 0xFFF [0x01] ({ word 0xD33F with i := 0x0FF1 }.setV 3 10)) (fun t => t.fb == fbOf [1553] && t.getV 0xF == 0x00) = true := by
  decide
/-- V-DRW-11. -/
theorem test_draw_fault :
    faults (lit [5] (({ word 0xD33F with i := 0x0FF2 }.setV 3 10).setV 0xF 0x55)) .memAddrOutOfBounds 0xD33F 0x1000 = true := by decide

/-! ### Keypad -/

/-- V-KEY-1, V-KEY-2. -/
theorem test_skp :
    after (((at_ 0x210 0xE39E).setV 3 0x07).setKey 7 true) (fun t => t.pc == 0x214 && t.keyAt 7) = true ∧
    after (((at_ 0x210 0xE39E).setV 3 0x07).setKey 8 true) (fun t => t.pc == 0x212) = true := by decide
/-- V-KEY-5: 0x10 is not reduced to key 0. -/
theorem test_skp_fault : faults (((at_ 0x210 0xE39E).setV 3 0x10).setKey 0 true) .keyIndexOutOfRange 0xE39E 0x0210 = true := by decide
/-- V-KEY-3, V-KEY-4. -/
theorem test_sknp :
    after (((at_ 0x210 0xE3A1).setV 3 0x07).setKey 7 true) (fun t => t.pc == 0x212) = true ∧
    after ((at_ 0x210 0xE3A1).setV 3 0x07) (fun t => t.pc == 0x214) = true := by decide
/-- V-KEY-6. -/
theorem test_sknp_fault : faults (((at_ 0x210 0xE3A1).setV 3 0x17).setKey 7 true) .keyIndexOutOfRange 0xE3A1 0x0210 = true := by decide
/-- V-KEY-7, for both values of FX0A_CLOBBER_VX. -/
theorem test_key_wait_retries :
    after ((word 0xF10A).setV 1 0x55) (fun t => decide (t = word 0xF10A)) = true ∧
    keyWait false 1 ((word 0xF10A).setV 1 0x55) = .next ((word 0xF10A).setV 1 0x55) := ⟨by decide, by rfl⟩
/-- V-KEY-9, V-KEY-11, V-KEY-12. -/
theorem test_key_wait_takes :
    after ((((word 0xF10A).setV 1 0x55).setKey 3 true).setKey 7 true) (fun t => t.pc == 0x202 && t.getV 1 == 0x03 && t.keyAt 3 && t.keyAt 7) = true ∧
    after (((word 0xF10A).setV 1 0x55).setKey 0 true) (fun t => t.pc == 0x202 && t.getV 1 == 0x00) = true ∧
    after (((word 0xFF0A).setV 0xF 0x55).setKey 9 true) (fun t => t.pc == 0x202 && t.getV 0xF == 0x09) = true := by decide

/-! ### Timers and host operations -/

/-- V-TMR-1. -/
theorem test_read_dt :
    after ({ word 0xF207 with dt := 0x2A }.setV 2 0xEE) (fun t => t.getV 2 == 0x2A && t.dt == 0x2A && t.pc == 0x202) = true := by decide
/-- V-TMR-2. -/
theorem test_write_dt : after ({ word 0xF115 with dt := 0x99 }.setV 1 0x03) (fun t => t.dt == 0x03 && t.st == 0 && t.pc == 0x202) = true := by decide
/-- V-TMR-4. -/
theorem test_write_st : after { word 0xF018 with st := 0x05 } (fun t => t.st == 0x00 && t.dt == 0 && t.pc == 0x202) = true := by decide
/-- V-TMR-5, V-TMR-6 (first row), V-TMR-7 (first row). -/
theorem test_tick_timers :
    afterOp .tickTimers State.reset (fun t r => decide (t = State.reset) && decide (r = .okBeep false)) = true ∧
    afterOp .tickTimers { State.reset with dt := 3, st := 1 } (fun t r => t.dt == 2 && t.st == 0 && decide (r = .okBeep true)) = true ∧
    afterOp .tickTimers { State.reset with dt := 1, st := 3 } (fun t r => t.dt == 0 && t.st == 2 && decide (r = .okBeep false)) = true := by
  decide
/-- V-HOST-6 (last call), V-HOST-7. -/
theorem test_set_key :
    afterOp (.setKey 15 false) ((State.reset.setKey 15 true).setKey 0 true)
      (fun t r => decide (t = State.reset.setKey 0 true) && decide (r = .ok)) = true ∧
    afterOp (.setKey 16 true) State.reset
      (fun t r => decide (t = { State.reset with fault := ⟨.hostKeyIndexOutOfRange, 0x0000, 0x0010⟩ }) &&
        decide (r = .err ⟨.hostKeyIndexOutOfRange, 0x0000, 0x0010⟩)) = true := by decide
/-- V-HOST-5: the tail of the first load stays. -/
theorem test_load_program :
    afterOp (.loadProgram [0x60, 0x01]) (poke 0x200 [0x12, 0x00, 0xAA, 0xBB] State.reset)
      (fun t r => readBytes t.mem 0x200 4 == [0x60, 0x01, 0xAA, 0xBB] && t.pc == 0x200 && decide (r = .ok)) = true := by decide
/-- V-HOST-4: one byte too many is refused whole. -/
theorem test_load_program_too_large :
    perform (.loadProgram (List.replicate 3585 0xAA)) State.reset =
      .next ({ State.reset with fault := ⟨.programTooLarge, 0x0000, 0x1000⟩ }, .err ⟨.programTooLarge, 0x0000, 0x1000⟩) := by
  generalize hb : List.replicate 3585 (0xAA : Byte) = bytes
  have hl : bytes.length = 3585 := by rw [← hb, List.length_replicate]
  simp [perform, opLoadProgram, okOrErr, State.reset, State.latch, FaultRecord.clear, hl]
/-- E7: a faulted state, its font and program overwritten. -/
theorem test_reset :
    afterOp .reset (lit [5] { ((poke 0 [0x00] (word 0x00EE)).setKey 3 true) with dt := 9, fault := ⟨.stackUnderflow, 0x00EE, 0x0200⟩ })
      (fun t r => decide (t = State.reset) && memGet t.mem 0 == 0xF0 && decide (r = .ok)) = true := by decide
/-- V-FLT-7: everything but the snapshot and reset answers the latched record and changes nothing. -/
theorem test_faulted :
    after { word 0x6001 with fault := ⟨.stackUnderflow, 0x00EE, 0x0200⟩ }
      (fun t => decide (t = { word 0x6001 with fault := ⟨.stackUnderflow, 0x00EE, 0x0200⟩ })) = true ∧
    afterOp (.setKey 1 true) { word 0x6001 with fault := ⟨.stackUnderflow, 0x00EE, 0x0200⟩ }
      (fun t r => !t.keyAt 1 && decide (r = .err ⟨.stackUnderflow, 0x00EE, 0x0200⟩)) = true := by decide
/-- 60_exceptions.md R100: pixel (1, 2) is at 129 and at no neighbour; 2048 pixels. -/
theorem test_snapshot :
    (opFramebufferSnapshot (lit [129] State.reset))[129]? = some true ∧
    (opFramebufferSnapshot (lit [129] State.reset))[66]? = some false ∧
    (opFramebufferSnapshot (lit [129] State.reset))[2048]? = none := by
  refine ⟨?_, ?_, ?_⟩
  · rw [opFramebufferSnapshot, List.getElem?_map, List.getElem?_range (by decide)]; decide
  · rw [opFramebufferSnapshot, List.getElem?_map, List.getElem?_range (by decide)]; decide
  · rw [List.getElem?_eq_none]; simp [opFramebufferSnapshot, Config.fbCols, Config.fbRows]

/-! ### Witnesses: the hypotheses of each statement are met together -/

theorem witness_encode_of_decode : decodeWord 0x8AB6 = .ok (.shrVx 0xA 0xB) := by decide
theorem witness_mask_and_match :
    decodeWord 0xD012 = .ok (.drwVxVyN 0 1 2) ∧ (Instr.drwVxVyN 0 1 2).row ∈ opcodeTable ∧
    (0xD012 : Word) &&& (Instr.drwVxVyN 0 1 2).row.mask = (Instr.drwVxVyN 0 1 2).row.pattern := by decide
/-- Each of the six patterns at a boundary of its range, and the neighbour that is an instruction. -/
theorem witness_unimplemented :
    decodeWord 0x00EF = .error (.unimplementedOpcode 0x00EF) ∧ decodeWord 0x0FFF = .error (.unimplementedOpcode 0x0FFF) ∧
    decodeWord 0x5001 = .error (.unimplementedOpcode 0x5001) ∧ decodeWord 0x8008 = .error (.unimplementedOpcode 0x8008) ∧
    decodeWord 0x8FFF = .error (.unimplementedOpcode 0x8FFF) ∧ decodeWord 0x9FFF = .error (.unimplementedOpcode 0x9FFF) ∧
    decodeWord 0xE09D = .error (.unimplementedOpcode 0xE09D) ∧ decodeWord 0xF066 = .error (.unimplementedOpcode 0xF066) ∧
    decodeWord 0x8FFE = .ok (.shlVx 0xF 0xF) := by decide
/-- The last legal fetch address. -/
theorem witness_step_runs :
    (at_ 0xFFE 0x6A7F).NoFault ∧ (at_ 0xFFE 0x6A7F).pc.toNat ≤ 0xFFE ∧
    (0x6A7F : Word).toNat = 256 * (memGet (at_ 0xFFE 0x6A7F).mem 0xFFE).toNat + (memGet (at_ 0xFFE 0x6A7F).mem 0xFFF).toNat ∧
    decodeWord 0x6A7F = .ok (.ldVxNn 0xA 0x7F) := by decide
/-- PC just above the last legal fetch address. -/
theorem witness_fetch_fault : State.NoFault { State.reset with pc := 0xFFF } ∧ (0xFFF : Word).toNat > 0xFFE := by decide
theorem witness_decode_fault :
    (at_ 0xFFE 0xFFFF).NoFault ∧ (at_ 0xFFE 0xFFFF).pc.toNat ≤ 0xFFE ∧
    (0xFFFF : Word).toNat = 256 * (memGet (at_ 0xFFE 0xFFFF).mem 0xFFE).toNat + (memGet (at_ 0xFFE 0xFFFF).mem 0xFFF).toNat ∧
    decodeWord 0xFFFF = .error (.unimplementedOpcode 0xFFFF) := by decide
theorem witness_faulted : ¬ State.NoFault { State.reset with fault := ⟨.stackUnderflow, 0x00EE, 0x0200⟩ } := by decide
theorem witness_faults_are_precise :
    (word 0x00EE).NoFault ∧ ∃ t, step (word 0x00EE) = .next t ∧ ¬ t.NoFault := ⟨by decide, _, rfl, by decide⟩
/-- Each row of the execute-phase faults, at the least value that faults. -/
theorem witness_execute_faults :
    (∃ t, exec (.call 0x300) { State.reset with sp := 16 } = .next t ∧ t.fault ≠ State.reset.fault) ∧
    (∃ t, exec .ret State.reset = .next t ∧ t.fault ≠ State.reset.fault) ∧
    (∃ t, exec (.drwVxVyN 0 0 1) { State.reset with i := 0x1000 } = .next t ∧ t.fault ≠ State.reset.fault) ∧
    (∃ t, exec (.ldBVx 0) { State.reset with i := 0xFFE } = .next t ∧ t.fault ≠ State.reset.fault) ∧
    (∃ t, exec (.ldMemVx 1) { State.reset with i := 0xFFF } = .next t ∧ t.fault ≠ State.reset.fault) ∧
    (∃ t, exec (.ldVxMem 1) { State.reset with i := 0xFFF } = .next t ∧ t.fault ≠ State.reset.fault) ∧
    (∃ t, exec (.skpVx 0) (State.reset.setV 0 16) = .next t ∧ t.fault ≠ State.reset.fault) ∧
    (∃ t, exec (.sknpVx 0) (State.reset.setV 0 16) = .next t ∧ t.fault ≠ State.reset.fault) :=
  ⟨⟨_, rfl, by decide⟩, ⟨_, rfl, by decide⟩, ⟨_, rfl, by decide⟩, ⟨_, rfl, by decide⟩, ⟨_, rfl, by decide⟩,
    ⟨_, rfl, by decide⟩, ⟨_, rfl, by decide⟩, ⟨_, rfl, by decide⟩⟩
theorem witness_full_and_empty : ({ State.reset with sp := 16 } : State).sp = 16 ∧ State.reset.sp = 0 := by decide
theorem witness_above_sixteen :
    ({ State.reset with sp := 17 } : State).sp.toNat > 16 ∧ ({ State.reset with sp := 31 } : State).sp.toNat > 16 := by decide
/-- The least I that each transfer stops on, with the recorded address, and one I above 0x1000. -/
theorem witness_transfers :
    ((0x1000 : Word).toNat = max (0xFFE : Word).toNat 0x1000 ∧ (0xFFE : Word).toNat + 2 > 0xFFF) ∧
    ((0x1000 : Word).toNat = max (0xFF1 : Word).toNat 0x1000 ∧ (0xFF1 : Word).toNat + (15 : Nibble).toNat > 0xFFF) ∧
    ((0x1000 : Word).toNat = max (0xFFF : Word).toNat 0x1000 ∧ 0 < (2 : Nibble).toNat ∧ (0xFFF : Word).toNat + (2 : Nibble).toNat - 1 > 0xFFF) ∧
    ((0x1234 : Word).toNat = max (0x1234 : Word).toNat 0x1000 ∧ (0x1234 : Word).toNat + 2 > 0xFFF) := by decide
theorem witness_key_above_fifteen : ((State.reset.setV 3 16).getV 3).toNat > 15 := by decide
theorem witness_self_jump_pc : State.reset.pc.toNat = (0x200 : Addr12).toNat := by decide
theorem witness_call : ({ State.reset with sp := 15 } : State).sp.toNat < 16 ∧ State.reset.sp.toNat < 16 := by decide
theorem witness_return :
    ({ State.reset with sp := 1 } : State).sp.toNat = (0 : Nibble).toNat + 1 ∧
    ({ State.reset with sp := 16 } : State).sp.toNat = (15 : Nibble).toNat + 1 := by decide
/-- The state a call leaves is itself one from which the return is made. -/
theorem witness_return_resumes :
    ({ State.reset with sp := 15 } : State).sp.toNat < 16 ∧ ∃ t, exec (.call 0x300) { State.reset with sp := 15 } = .next t ∧
      t.sp = t.sp ∧ ∀ k : Nibble, k.toNat < t.sp.toNat → t.slot k = t.slot k :=
  ⟨by decide, _, rfl, rfl, fun _ _ => rfl⟩
/-- `x` other than 15, on both sides of each flag's boundary. -/
theorem witness_flags :
    (0 : Nibble) ≠ 15 ∧ (14 : Nibble) ≠ 15 ∧ (0xFF : Byte).toNat + (0x01 : Byte).toNat > 255 ∧ ¬ (0xFF : Byte).toNat + (0x00 : Byte).toNat > 255 ∧
    (0x33 : Byte).toNat ≥ (0x33 : Byte).toNat ∧ ¬ (0x33 : Byte).toNat ≥ (0x34 : Byte).toNat := by decide
theorem witness_bcd : ({ State.reset with i := 0xFFD } : State).i.toNat + 2 ≤ 0xFFF := by decide
theorem witness_blocks :
    ({ State.reset with i := 0xFF0 } : State).i.toNat + (15 : Nibble).toNat ≤ 0xFFF ∧
    ({ State.reset with i := 0xFFF } : State).i.toNat + (0 : Nibble).toNat ≤ 0xFFF := by decide
theorem witness_store_seen :
    State.NoFault { State.reset with i := 0x202 } ∧ 1 ≤ (1 : Nibble).toNat ∧ (0x202 : Word).toNat = (0x200 : Word).toNat + 2 ∧
    (0x202 : Word).toNat + (1 : Nibble).toNat ≤ 0xFFF ∧ decodeWord (joinBytes 0x12 0x34) = .ok (.jp 0x234) := by decide
/-- The two disjuncts of the draw's premise at their boundaries: no row with I outside memory, and fifteen rows up to
0xFFF. -/
theorem witness_draw_premise :
    (0 : Nibble).toNat = 0 ∧ (0xFF1 : Word).toNat + (15 : Nibble).toNat - 1 ≤ 0xFFF := by decide
/-- A covered pixel that is on, a covered pixel that is off, and an uncovered one. -/
theorem witness_draw_covers :
    SpriteCovers (lit [0] State.reset) 0 0 1 0 0 ∧ (lit [0] State.reset).pixel 0 0 = true ∧
    SpriteCovers (lit [0] State.reset) 0 0 1 1 0 ∧ (lit [0] State.reset).pixel 1 0 = false ∧
    ¬ SpriteCovers (lit [0] State.reset) 0 0 1 9 0 := by
  refine ⟨⟨0, 0, by decide⟩, by decide, ⟨0, 1, by decide⟩, by decide, ?_⟩
  rintro ⟨r, c, _, hc, _, h, _⟩
  have h0 : (State.reset.getV 0).toNat = 0 := by decide
  have h9 : ((9 : BitVec 6)).toNat = 9 := by decide
  have h1 : ((lit [0] State.reset).getV 0).toNat = 0 := h0
  rw [h1, h9] at h
  omega
/-- A draw that clears its flag: no covered pixel is on. -/
theorem witness_draw_no_hit : ∀ col row, SpriteCovers State.reset 0 0 1 col row → State.reset.pixel col row = false := by
  intro col row _
  simp [State.reset, State.pixel, fbGet]
/-- A second draw that clears its flag: every covered pixel was on (a sprite with one set bit). -/
theorem witness_double_draw :
    (0 : Nibble) ≠ 15 ∧ (0x300 : Word).toNat + (1 : Nibble).toNat - 1 ≤ 0xFFF ∧
    ∀ col row, SpriteCovers (lit [0] (poke 0x300 [0x80] { State.reset with i := 0x300 })) 0 0 1 col row →
      (lit [0] (poke 0x300 [0x80] { State.reset with i := 0x300 })).pixel col row = true := by
  refine ⟨by decide, by decide, ?_⟩
  rintro col row ⟨r, c, hr, hc, hb, h1, h2⟩
  have hr0 : r = 0 := by
    have e : (1 : Nibble).toNat = 1 := by decide
    omega
  subst hr0
  have key : ∀ c < 8, (0x80 : Byte).getLsbD (7 - c) = true → c = 0 := by decide
  have hc0 : c = 0 := key c hc hb
  subst hc0
  have e1 : col = 0 := BitVec.eq_of_toNat_eq h1
  have e2 : row = 0 := BitVec.eq_of_toNat_eq h2
  subst e1; subst e2
  decide
theorem witness_draw_next : ∃ t, exec (.drwVxVyN 0 0 1) State.reset = .next t := ⟨_, rfl⟩
theorem witness_key_skips :
    ((State.reset.setV 3 15).getV 3).toNat = (15 : Nibble).toNat ∧ (State.reset.getV 3).toNat = (0 : Nibble).toNat := by decide
/-- The least key is key 0, the least key is key 15, and no key. -/
theorem witness_key_wait :
    ((State.reset.setKey 0 true).keyAt 0 = true ∧ ∀ j : Nibble, j.toNat < (0 : Nibble).toNat → (State.reset.setKey 0 true).keyAt j = false) ∧
    ((State.reset.setKey 15 true).keyAt 15 = true ∧ ∀ j : Nibble, j.toNat < (15 : Nibble).toNat → (State.reset.setKey 15 true).keyAt j = false) ∧
    ∀ k, State.reset.keyAt k = false := by decide
theorem witness_key_wait_holds :
    (at_ 0xFFE 0xF10A).NoFault ∧ (at_ 0xFFE 0xF10A).pc.toNat ≤ 0xFFE ∧
    fetchWordAt (at_ 0xFFE 0xF10A).mem (at_ 0xFFE 0xF10A).pc.toNat = encode (.ldVxK 1) ∧ ∀ k, (at_ 0xFFE 0xF10A).keyAt k = false := by
  decide
/-- The wait ends: the same state but for a pressed key. -/
theorem witness_key_wait_ends :
    (at_ 0xFFE 0xF10A).setKey 15 true = { at_ 0xFFE 0xF10A with key := ((at_ 0xFFE 0xF10A).setKey 15 true).key } ∧
    ((at_ 0xFFE 0xF10A).setKey 15 true).keyAt 15 = true ∧
    ∀ j : Nibble, j.toNat < (15 : Nibble).toNat → ((at_ 0xFFE 0xF10A).setKey 15 true).keyAt j = false := by decide
theorem witness_no_fault : State.reset.NoFault := by decide
theorem witness_set_key : (15 : Nat) ≤ 15 ∧ 15 < (16 : Nat) := by decide
theorem witness_load_program :
    (List.replicate 3584 (0xAA : Byte)).length ≤ 3584 ∧ 3584 < (List.replicate 3585 (0xAA : Byte)).length := by
  rw [List.length_replicate, List.length_replicate]; decide
/-- An instruction that writes a flag, and the parts and registers it does not write. -/
theorem witness_writers :
    (∃ t, exec (.addVxVy 0 1) State.reset = .next t ∧ State.reset.NoFault ∧ t.NoFault) ∧ writesFlag (.addVxVy 0 1) = true ∧
    StatePart.mem ∉ instrParts (.addVxVy 0 1) ∧ (3 : Nibble) ∉ instrRegs (.addVxVy 0 1) :=
  ⟨⟨_, rfl, by decide, by decide⟩, by decide, by decide, by decide⟩
theorem witness_step_keeps : State.reset.Inv ∧ ∃ t, step State.reset = .next t := ⟨by decide, _, rfl⟩
/-- An unfaulted state with entries on the stack has the invariant too. -/
theorem witness_inv_deep : State.Inv { (State.reset.setSlot 0 0x202) with sp := 1, pc := 0x300 } := by decide
theorem witness_memories : Memory.wf [(0x300, 0x07)] ∧ ∀ a, memGet [(0x300, 0x07)] a = memGet [(0x300, 0x07)] a :=
  ⟨by decide, fun _ => rfl⟩
theorem witness_finished : Finished 0x200 (word 0x1200) ∧ Finished 0xFFE (at_ 0xFFE 0x1FFE) := by
  unfold Finished; decide
theorem witness_sound_run : ∃ t, Host.Core.run Sys2Proof.core 1 State.reset = .next t := ⟨_, rfl⟩

end Sys2Proof.Tests
end

/-! ### The frame of an instruction: what each update of the state leaves as it was -/

namespace Sys2Proof.Machine

variable {s t u : State} {regs : List Nibble} {parts : List StatePart}

theorem Unchanged.refl (s : State) (p : StatePart) : Unchanged s s p := by
  cases p <;> simp [Unchanged]

theorem Frame.refl (regs : List Nibble) (parts : List StatePart) (s : State) : Frame regs parts s s :=
  ⟨fun _ _ => rfl, fun p _ => Unchanged.refl s p⟩

/-- An update of one piece of state that the frame lets change, and of no register. That the other pieces read as
before is found by reduction where `u` is a record update of `t`. -/
theorem Frame.update (h : Frame regs parts s t) {q : StatePart} (hq : q ∈ parts) (hv : u.v = t.v)
    (hu : ∀ p, p ≠ q → Unchanged s t p → Unchanged s u p := by
      intro p hne hu
      cases p <;> first | exact absurd rfl hne | exact hu) : Frame regs parts s u := by
  obtain ⟨hregs, hparts⟩ := h
  refine ⟨fun x hx => (getV_congr hv x).trans (hregs x hx), fun p hp => hu p ?_ (hparts p hp)⟩
  rintro rfl
  exact hp hq

theorem Frame.setV (h : Frame regs parts s t) {x : Nibble} (hx : x ∈ regs) (b : Byte) :
    Frame regs parts s (t.setV x b) := by
  obtain ⟨hregs, hparts⟩ := h
  refine ⟨fun y hy => ?_, fun p hp => ?_⟩
  · have hne : y ≠ x := fun e => hy (e ▸ hx)
    rw [getV_setV_of_ne _ b hne, hregs y hy]
  · cases p <;> exact hparts _ hp

theorem Frame.setPc (h : Frame regs parts s t) (w : Word) : Frame regs parts s (t.setPc w) := by
  obtain ⟨hregs, hparts⟩ := h
  exact ⟨hregs, fun p hp => by cases p <;> exact hparts _ hp⟩

theorem Frame.advance (h : Frame regs parts s t) : Frame regs parts s t.advance := h.setPc _

theorem Frame.skipIf (h : Frame regs parts s t) (c : Bool) : Frame regs parts s (t.skipIf c) := by
  cases c
  · exact h
  · exact h.setPc _

theorem Frame.setVWithFlag (h : Frame regs parts s t) {x : Nibble} (hx : x ∈ regs) (hF : vF ∈ regs) (b : Byte)
    (c : Bool) : Frame regs parts s (t.setVWithFlag x b c) :=
  (h.setV hx b).setV hF _

/-- A block load from register `k` on, where the registers it fills are among those the frame lets change. -/
theorem Frame.setBlock (bs : List Byte) : ∀ {t : State} {k : Nat}, Frame regs parts s t →
    (∀ j, k ≤ j → j < k + bs.length → BitVec.ofNat 4 j ∈ regs) → Frame regs parts s (t.setBlock k bs) := by
  induction bs with
  | nil => intro t k h _; exact h
  | cons b bs ih =>
    intro t k h hk
    simp only [List.length_cons] at hk
    exact ih (h.setV (hk k (by omega) (by omega)) b) (fun j h1 h2 => hk j (by omega) (by omega))

theorem Frame.setI (h : Frame regs parts s t) (hp : .i ∈ parts) (w : Word) : Frame regs parts s (t.setI w) :=
  h.update hp rfl

theorem Frame.setDt (h : Frame regs parts s t) (hp : .dt ∈ parts) (b : Byte) : Frame regs parts s (t.setDt b) :=
  h.update hp rfl

theorem Frame.setSt (h : Frame regs parts s t) (hp : .st ∈ parts) (b : Byte) : Frame regs parts s (t.setSt b) :=
  h.update hp rfl

theorem Frame.countDraw (h : Frame regs parts s t) (hp : .draws ∈ parts) : Frame regs parts s t.countDraw :=
  h.update hp rfl

theorem Frame.setFb (h : Frame regs parts s t) (hp : .fb ∈ parts) (fb : Framebuffer) :
    Frame regs parts s { t with fb := fb } :=
  h.update hp rfl

theorem Frame.setMem (h : Frame regs parts s t) (hp : .mem ∈ parts) (m : Memory) :
    Frame regs parts s { t with mem := m } :=
  h.update hp rfl

theorem Frame.setSp (h : Frame regs parts s t) (hp : .sp ∈ parts) (n : BitVec 5) :
    Frame regs parts s { t with sp := n } :=
  h.update hp rfl

theorem Frame.setSlot (h : Frame regs parts s t) (hp : .stack ∈ parts) (k : Nibble) (w : Word) :
    Frame regs parts s (t.setSlot k w) :=
  h.update hp rfl

theorem Frame.setFault (h : Frame regs parts s t) (hp : .fault ∈ parts) (f : FaultRecord) :
    Frame regs parts s { t with fault := f } :=
  h.update hp rfl

/-! ### The frame of every instruction -/

/-- `t` is `s` with a fault latched. -/
def Raised (s t : State) : Prop := ∃ c o a, c ≠ .noFault ∧ t = s.latch c o a

theorem raised_latch {c : FaultCause} (hc : c ≠ .noFault) (s : State) (o a : Word) : Raised s (s.latch c o a) :=
  ⟨c, o, a, hc, rfl⟩

theorem Raised.frame (h : Raised s t) : Frame [] [.fault] s t := by
  obtain ⟨c, o, a, -, rfl⟩ := h
  exact (Frame.refl _ _ s).setFault (by simp) _

theorem Raised.not_noFault (h : Raised s t) : ¬ t.NoFault := by
  obtain ⟨c, o, a, hc, rfl⟩ := h
  exact hc

theorem storeAtI_frame {op : Word} {bs : List Byte} (ht : storeAtI op bs s = .next t) :
    Raised s t ∨ Frame [] [.mem] s t := by
  obtain ⟨-, he⟩ | ⟨-, he⟩ := storeAtI_cases op bs s <;> cases he.symm.trans ht
  · exact .inr ((Frame.refl _ _ s).advance.setMem (by simp) _)
  · exact .inl (raised_latch (by decide) _ _ _)

theorem skipOnKey_frame {op : Word} {x : Nibble} {level : Bool} (ht : skipOnKey op x level s = .next t) :
    Raised s t ∨ Frame [] [] s t := by
  obtain ⟨-, he⟩ | ⟨-, he⟩ := skipOnKey_cases op x level s <;> cases he.symm.trans ht
  · exact .inr ((Frame.refl _ _ s).advance.skipIf _)
  · exact .inl (raised_latch (by decide) _ _ _)

theorem keyWait_frame {clobber : Bool} {x : Nibble} (ht : keyWait clobber x s = .next t) : Frame [x] [] s t := by
  obtain ⟨k, -, he⟩ | ⟨-, he⟩ := keyWait_cases clobber x s <;> cases he.symm.trans ht
  · exact (Frame.refl _ _ s).advance.setV (by simp) _
  · cases clobber
    · exact Frame.refl _ _ s
    · exact (Frame.refl _ _ s).setV (by simp) _

theorem execRet_frame (ht : execRet s = .next t) : Raised s t ∨ Frame [] [.sp] s t := by
  obtain ⟨-, he⟩ | ⟨-, -, he⟩ | ⟨-, he⟩ := execRet_cases s <;> cases he.symm.trans ht
  · exact .inl (raised_latch (by decide) _ _ _)
  · exact .inr (((Frame.refl _ _ s).setSp (by simp) _).setPc _)

theorem execCall_frame {nnn : Addr12} (ht : execCall nnn s = .next t) : Raised s t ∨ Frame [] [.stack, .sp] s t := by
  obtain ⟨-, he⟩ | ⟨-, he⟩ | ⟨-, he⟩ := execCall_cases nnn s <;> cases he.symm.trans ht
  · exact .inl (raised_latch (by decide) _ _ _)
  · exact .inr ((((Frame.refl _ _ s).setSlot (by simp) _ _).setSp (by simp) _).setPc _)

theorem execLdVxMem_frame {x : Nibble} (ht : execLdVxMem x s = .next t) :
    Raised s t ∨ Frame (instrRegs (.ldVxMem x)) [] s t := by
  obtain ⟨-, he⟩ | ⟨-, he⟩ := execLdVxMem_cases x s <;> cases he.symm.trans ht
  · refine .inr ((Frame.refl _ _ s).advance.setBlock _ fun j _ hj => ?_)
    rw [length_readBytes] at hj
    exact List.mem_map.2 ⟨j, List.mem_range.2 (by omega), rfl⟩
  · exact .inl (raised_latch (by decide) _ _ _)

theorem execDrwVxVyN_frame {x y n : Nibble} (ht : execDrwVxVyN x y n s = .next t) :
    Raised s t ∨ Frame [15] [.fb] s t := by
  obtain ⟨-, drawn, -, he⟩ | ⟨-, he⟩ := execDrwVxVyN_cases x y n s <;> cases he.symm.trans ht
  · exact .inr (((Frame.refl _ _ s).advance.setFb (by simp) _).setV (by simp) _)
  · exact .inl (raised_latch (by decide) _ _ _)

/-- Every instruction latches a fault and does nothing else, or writes at most the registers and the state that the
rules of its mnemonic name (10_state.md R24; 40_control.md to 46_timer.md). -/
theorem exec_frame {i : Instr} (ht : exec i s = .next t) : Raised s t ∨ Frame (instrRegs i) (instrParts i) s t := by
  have hs : Frame (instrRegs i) (instrParts i) s s := Frame.refl _ _ s
  cases i with
  | ret => exact execRet_frame ht
  | call nnn => exact execCall_frame ht
  | drwVxVyN x y n => exact execDrwVxVyN_frame ht
  | skpVx x | sknpVx x => exact skipOnKey_frame ht
  | ldVxK x => exact .inr (keyWait_frame ht)
  | ldBVx x | ldMemVx x => exact storeAtI_frame ht
  | ldVxMem x => exact execLdVxMem_frame ht
  | nop =>
    cases ht
    exact .inr hs.advance
  | cls =>
    cases ht
    exact .inr (hs.advance.setFb (by simp [instrParts]) _)
  | jp nnn | jpV0Nnn nnn =>
    cases ht
    exact .inr (hs.setPc _)
  | seVxNn x nn | sneVxNn x nn | seVxVy x y | sneVxVy x y =>
    cases ht
    exact .inr (hs.advance.skipIf _)
  | ldVxNn x nn | addVxNn x nn | ldVxVy x y | orVxVy x y | andVxVy x y | xorVxVy x y | ldVxDt x =>
    cases ht
    exact .inr (hs.advance.setV (by simp [instrRegs]) _)
  | addVxVy x y | subVxVy x y | shrVx x y | subnVxVy x y | shlVx x y =>
    cases ht
    exact .inr (hs.advance.setVWithFlag (by simp [instrRegs]) (by simp [instrRegs]) _ _)
  | rndVxNn x nn =>
    cases ht
    exact .inr ((hs.advance.countDraw (by simp [instrParts])).setV (by simp [instrRegs]) _)
  | ldINnn nnn | addIVx x | ldFVx x =>
    cases ht
    exact .inr (hs.advance.setI (by simp [instrParts]) _)
  | ldDtVx x =>
    cases ht
    exact .inr (hs.advance.setDt (by simp [instrParts]) _)
  | ldStVx x =>
    cases ht
    exact .inr (hs.advance.setSt (by simp [instrParts]) _)

/-- Settles O50: what the frame of an instruction holds fixed, and a latched fault holds all of it fixed. -/
theorem instructionsWriteOnlyTheirState : Obligations.InstructionsWriteOnlyTheirState := by
  intro i s t ht p hp hfault
  obtain hraised | ⟨-, hparts⟩ := exec_frame ht
  · obtain ⟨-, hrest⟩ := hraised.frame
    exact hrest p (by simpa using hfault)
  · exact hparts p hp

/-! ### The flag -/

theorem flagByte_eq_zero_or_one (c : Bool) : flagByte c = 0x00 ∨ flagByte c = 0x01 := by
  cases c
  · exact .inl rfl
  · exact .inr rfl

/-- A flag writer that raises nothing writes VF last, with a flag (42_alu.md R71, decision D6). -/
theorem exec_flag {i : Instr} (hi : writesFlag i = true) (ht : exec i s = .next t) (hn : t.NoFault) :
    ∃ c, t.getV 15 = flagByte c := by
  cases i with
  | addVxVy x y | subVxVy x y | shrVx x y | subnVxVy x y | shlVx x y =>
    cases ht
    exact ⟨_, getV_setV_self _ vF _⟩
  | drwVxVyN x y n =>
    obtain ⟨-, drawn, -, he⟩ | ⟨-, he⟩ := execDrwVxVyN_cases x y n s <;> cases he.symm.trans ht
    · exact ⟨drawn.2, getV_setV_self _ vF _⟩
    · exact absurd hn (raised_latch (by decide) _ _ _).not_noFault
  | _ => cases hi

/-- Settles O51: the registers outside an instruction's frame, and the flag its writers leave. -/
theorem registerAndFlagWritersAreTheTable : Obligations.RegisterAndFlagWritersAreTheTable := by
  intro i s t ht
  refine ⟨fun x hx => ?_, fun hi _ hn => ?_⟩
  · obtain hraised | ⟨hregs, -⟩ := exec_frame ht
    · obtain ⟨hregs, -⟩ := hraised.frame
      exact hregs x List.not_mem_nil
    · exact hregs x hx
  · obtain ⟨c, hc⟩ := exec_flag hi ht hn
    rw [hc]
    exact flagByte_eq_zero_or_one c

end Sys2Proof.Machine

/-! ### The invariant of the machine: what each update of the state does to it (10_state.md R12, R14, R20) -/

namespace Sys2Proof.Machine

/-- The address after an instruction that was fetched inside memory. -/
theorem toNat_add_two {w : Word} (h : w.toNat ≤ 0xFFE) : (w + 2).toNat = w.toNat + 2 := by
  rw [BitVec.toNat_add]; simp; omega

/-- A skip from inside memory ends at most four bytes further. -/
theorem advance_skipIf_pc_le {s : State} (h : s.pc.toNat ≤ 0xFFE) (c : Bool) :
    (s.advance.skipIf c).pc.toNat ≤ 0x1002 := by
  have h2 := toNat_add_two h
  have h4 : (s.pc + 4).toNat ≤ s.pc.toNat + 4 := by rw [BitVec.toNat_add]; simp; omega
  rw [advance_skipIf_pc]
  split <;> omega

variable {s t : State}

/-- The invariant speaks of memory, the stack, SP, PC and the fault record alone. -/
theorem State.Inv.of_same (h : s.Inv) (hmem : t.mem = s.mem) (hsp : t.sp = s.sp) (hstack : t.stack = s.stack)
    (hfault : t.fault = s.fault) (hpc : t.pc.toNat ≤ 0x10FE) : t.Inv := by
  obtain ⟨hwf, h16, -, hslot, huse, hclear⟩ := h
  have hk : ∀ k, t.slot k = s.slot k := slot_congr hstack
  refine ⟨hmem ▸ hwf, hsp ▸ h16, hpc, fun k => hk k ▸ hslot k, fun k hlt => ?_, ?_⟩
  · rw [hk]; exact huse k (hsp ▸ hlt)
  · rw [State.NoFault, hfault]; exact hclear

/-- A latched fault leaves everything but the record, and the record says nothing of a machine without one. -/
theorem State.Inv.latch (h : s.Inv) {c : FaultCause} (hc : c ≠ .noFault) (o a : Word) : (s.latch c o a).Inv := by
  obtain ⟨hwf, h16, hpc, hslot, huse, -⟩ := h
  exact ⟨hwf, h16, hpc, hslot, huse, fun hn => absurd hn hc⟩

/-- A block stored inside memory, or of no byte at all, keeps the canonical form and with it the invariant. -/
theorem State.Inv.writeBytes (h : s.Inv) {a : Nat} {bs : List Byte}
    (hfit : bs.length = 0 ∨ a + bs.length ≤ Config.memSize) : State.Inv { s with mem := writeBytes s.mem a bs } := by
  obtain ⟨hwf, hrest⟩ := h
  refine ⟨?_, hrest⟩
  obtain h0 | hfit := hfit
  · rwa [List.eq_nil_of_length_eq_zero h0]
  · exact writeBytes_wf bs hwf hfit

theorem State.Inv.setPc (h : s.Inv) {w : Word} (hw : w.toNat ≤ 0x10FE) : (s.setPc w).Inv :=
  h.of_same rfl rfl rfl rfl hw

theorem State.Inv.advance (h : s.Inv) (hpc : s.pc.toNat ≤ 0xFFE) : s.advance.Inv :=
  h.setPc (by rw [toNat_add_two hpc]; omega)

theorem State.Inv.skip (h : s.Inv) (hpc : s.pc.toNat ≤ 0xFFE) (c : Bool) : (s.advance.skipIf c).Inv :=
  h.of_same (skipIf_mem _ c) (skipIf_sp _ c) (skipIf_stack _ c) (skipIf_fault _ c)
    ((advance_skipIf_pc_le hpc c).trans (by decide))

theorem State.Inv.setBlock (h : s.Inv) (k : Nat) (bs : List Byte) : (s.setBlock k bs).Inv := by
  obtain ⟨-, -, hpc, -⟩ := id h
  exact h.of_same (setBlock_mem bs s k) (setBlock_sp bs s k) (setBlock_stack bs s k) (setBlock_fault bs s k)
    ((setBlock_pc bs s k).symm ▸ hpc)

/-- A push below the sixteenth slot of an address PC can have after a fetch. -/
theorem State.Inv.push (h : s.Inv) (hsp : s.sp.toNat < 16) {w : Word} (hlo : 2 ≤ w.toNat) (hhi : w.toNat ≤ 0x1000) :
    (s.push w).Inv := by
  obtain ⟨hwf, -, hpc, hslot, huse, hclear⟩ := h
  have hnew : (s.push w).sp.toNat = s.sp.toNat + 1 := by rw [push_sp, BitVec.toNat_add]; simp; omega
  have hnum : (s.sp.setWidth 4).toNat = s.sp.toNat := by rw [BitVec.toNat_setWidth]; omega
  refine ⟨hwf, by omega, hpc, fun k => ?_, fun k hk => ?_, hclear⟩
  · rw [slot_push]
    split
    · exact hhi
    · exact hslot k
  · rw [slot_push]
    split
    next => exact hlo
    next hne =>
      have : k.toNat ≠ s.sp.toNat := fun e => hne (BitVec.eq_of_toNat_eq (e.trans hnum.symm))
      exact huse k (by omega)

/-- A pop from a stack with an entry. -/
theorem State.Inv.dropTop (h : s.Inv) (hsp : 0 < s.sp.toNat) : s.dropTop.Inv := by
  obtain ⟨hwf, h16, hpc, hslot, huse, hclear⟩ := h
  have hnew : s.dropTop.sp.toNat = s.sp.toNat - 1 := by
    rw [dropTop_sp, BitVec.toNat_sub]; simp; omega
  exact ⟨hwf, by omega, hpc, hslot, fun k hk => huse k (by omega), hclear⟩

theorem State.Inv.top_le (h : s.Inv) : s.top.toNat ≤ 0x1000 := by
  obtain ⟨-, -, -, hslot, -, -⟩ := h
  exact hslot _

/-! ### The invariant along an instruction -/

theorem storeAtI_inv (h : s.Inv) (hpc : s.pc.toNat ≤ 0xFFE) {op : Word} {bs : List Byte}
    (ht : storeAtI op bs s = .next t) : t.Inv := by
  obtain ⟨hfit, he⟩ | ⟨-, he⟩ := storeAtI_cases op bs s <;> cases he.symm.trans ht
  · exact (h.advance hpc).writeBytes hfit
  · exact h.latch (by decide) _ _

theorem skipOnKey_inv (h : s.Inv) (hpc : s.pc.toNat ≤ 0xFFE) {op : Word} {x : Nibble} {level : Bool}
    (ht : skipOnKey op x level s = .next t) : t.Inv := by
  obtain ⟨-, he⟩ | ⟨-, he⟩ := skipOnKey_cases op x level s <;> cases he.symm.trans ht
  · exact h.skip hpc _
  · exact h.latch (by decide) _ _

theorem keyWait_inv (h : s.Inv) (hpc : s.pc.toNat ≤ 0xFFE) {clobber : Bool} {x : Nibble}
    (ht : keyWait clobber x s = .next t) : t.Inv := by
  obtain ⟨k, -, he⟩ | ⟨-, he⟩ := keyWait_cases clobber x s <;> cases he.symm.trans ht
  · exact h.advance hpc
  · cases clobber <;> exact h

theorem execRet_inv (h : s.Inv) (ht : execRet s = .next t) : t.Inv := by
  obtain ⟨-, he⟩ | ⟨hpos, -, he⟩ | ⟨-, he⟩ := execRet_cases s <;> cases he.symm.trans ht
  · exact h.latch (by decide) _ _
  · exact (h.dropTop hpos).setPc (h.top_le.trans (by decide))

theorem execCall_inv (h : s.Inv) (hpc : s.pc.toNat ≤ 0xFFE) {nnn : Addr12} (ht : execCall nnn s = .next t) :
    t.Inv := by
  have hret : s.advance.pc.toNat = s.pc.toNat + 2 := toNat_add_two hpc
  obtain ⟨-, he⟩ | ⟨hsp, he⟩ | ⟨-, he⟩ := execCall_cases nnn s <;> cases he.symm.trans ht
  · exact h.latch (by decide) _ _
  · exact (h.push hsp (by omega) (by omega)).setPc (by rw [zextAddr_toNat]; have := nnn.isLt; omega)

theorem execLdVxMem_inv (h : s.Inv) (hpc : s.pc.toNat ≤ 0xFFE) {x : Nibble} (ht : execLdVxMem x s = .next t) :
    t.Inv := by
  obtain ⟨-, he⟩ | ⟨-, he⟩ := execLdVxMem_cases x s <;> cases he.symm.trans ht
  · exact (h.advance hpc).setBlock _ _
  · exact h.latch (by decide) _ _

theorem execDrwVxVyN_inv (h : s.Inv) (hpc : s.pc.toNat ≤ 0xFFE) {x y n : Nibble}
    (ht : execDrwVxVyN x y n s = .next t) : t.Inv := by
  obtain ⟨-, drawn, -, he⟩ | ⟨-, he⟩ := execDrwVxVyN_cases x y n s <;> cases he.symm.trans ht
  · exact h.advance hpc
  · exact h.latch (by decide) _ _

theorem execJpV0Nnn_inv (h : s.Inv) {nnn : Addr12} (ht : execJpV0Nnn nnn s = .next t) : t.Inv := by
  cases ht
  refine h.setPc ?_
  have := nnn.isLt
  have := (s.getV 0).isLt
  rw [BitVec.toNat_add, zextByte_toNat, zextAddr_toNat]
  omega

/-- Every instruction fetched inside memory keeps the invariant. Those that neither transfer control nor touch memory
write nothing of which it speaks, but advance PC. -/
theorem exec_inv (h : s.Inv) (hpc : s.pc.toNat ≤ 0xFFE) {i : Instr} (ht : exec i s = .next t) : t.Inv := by
  cases i with
  | ret => exact execRet_inv h ht
  | jp nnn =>
    cases ht
    exact h.setPc (by rw [zextAddr_toNat]; have := nnn.isLt; omega)
  | call nnn => exact execCall_inv h hpc ht
  | jpV0Nnn nnn => exact execJpV0Nnn_inv h ht
  | seVxNn x nn | sneVxNn x nn | seVxVy x y | sneVxVy x y =>
    cases ht
    exact h.skip hpc _
  | skpVx x | sknpVx x => exact skipOnKey_inv h hpc ht
  | drwVxVyN x y n => exact execDrwVxVyN_inv h hpc ht
  | ldVxK x => exact keyWait_inv h hpc ht
  | ldBVx x | ldMemVx x => exact storeAtI_inv h hpc ht
  | ldVxMem x => exact execLdVxMem_inv h hpc ht
  | _ =>
    cases ht
    exact h.advance hpc

/-- Settles O53: a tick leaves a faulted machine as it is, latches a fault before the execute phase, or runs an
instruction fetched inside memory. -/
theorem stepKeepsTheInvariant : Obligations.StepKeepsTheInvariant := by
  intro s t h ht
  obtain ⟨-, he⟩ | ⟨-, -, he⟩ | ⟨-, -, -, he⟩ | ⟨-, hpc, i, -, he⟩ := tick_cases s
  · cases he.symm.trans ht
    exact h
  · cases he.symm.trans ht
    exact h.latch (by decide) _ _
  · cases he.symm.trans ht
    exact h.latch (by decide) _ _
  · exact exec_inv h hpc (he.symm.trans ht)

/-- Settles O52. -/
theorem invariantHoldsAtReset : Obligations.InvariantHoldsAtReset := by
  have hclear : State.reset.fault = FaultRecord.clear := rfl
  exact ⟨⟨.nil, by simp [State.reset]⟩, by decide, by decide, by decide, by decide, fun _ => hclear⟩

end Sys2Proof.Machine

/-! ### ST is read by no instruction (10_state.md R16) -/

namespace Sys2Proof.Machine

/-- A result with its next state, if it has one, changed by `f`. -/
def mapNext (f : State → State) : Result → Result
  | .next t => .next (f t)
  | .fault r => .fault r
  | .refused r => .refused r

theorem mapNext_ite (f : State → State) (p : Prop) [Decidable p] (q r : Result) :
    mapNext f (if p then q else r) = if p then mapNext f q else mapNext f r :=
  apply_ite (mapNext f) p q r

/-- `f` neither reads nor writes ST: from a state with another ST it answers the same, with that other ST. -/
def IgnoresSt (f : State → Result) : Prop := ∀ (s : State) (b : Byte), f (s.setSt b) = mapNext (·.setSt b) (f s)

theorem skipIf_setSt (s : State) (b : Byte) (c : Bool) : (s.setSt b).skipIf c = (s.skipIf c).setSt b := by
  cases c <;> rfl

theorem setBlock_setSt (bs : List Byte) : ∀ (s : State) (b : Byte) (k : Nat),
    (s.setSt b).setBlock k bs = (s.setBlock k bs).setSt b := by
  induction bs with
  | nil => intro s b k; rfl
  | cons d bs ih => intro s b k; exact ih (s.setV (BitVec.ofNat 4 k) d) b (k + 1)

theorem execRet_ignoresSt : IgnoresSt execRet := by
  intro s b
  simp only [execRet, mapNext_ite]
  rfl

theorem execCall_ignoresSt (nnn : Addr12) : IgnoresSt (execCall nnn) := by
  intro s b
  simp only [execCall, mapNext_ite]
  rfl

theorem skipOnKey_ignoresSt (op : Word) (x : Nibble) (level : Bool) : IgnoresSt (skipOnKey op x level) := by
  intro s b
  have hkey : isKeyIndex ((s.setSt b).getV x) = isKeyIndex (s.getV x) := rfl
  unfold skipOnKey
  rw [hkey]
  cases isKeyIndex (s.getV x) with
  | true => exact congrArg Host.Outcome.next (skipIf_setSt s.advance b _)
  | false => rfl

theorem keyWait_ignoresSt (clobber : Bool) (x : Nibble) : IgnoresSt (keyWait clobber x) := by
  intro s b
  have hkey : (s.setSt b).lowestKey = s.lowestKey := rfl
  unfold keyWait
  rw [hkey]
  cases s.lowestKey with
  | some k => rfl
  | none => cases clobber <;> rfl

theorem storeAtI_ignoresSt (op : Word) (bytes : List Byte) : IgnoresSt (storeAtI op bytes) := by
  intro s b
  have hfits : transferFits (s.setSt b).i bytes.length = transferFits s.i bytes.length := rfl
  unfold storeAtI memWrite
  rw [hfits]
  cases transferFits s.i bytes.length <;> rfl

theorem execLdVxMem_ignoresSt (x : Nibble) : IgnoresSt (execLdVxMem x) := by
  intro s b
  have hread : memRead (s.setSt b) (s.setSt b).i (x.toNat + 1) = memRead s s.i (x.toNat + 1) := rfl
  unfold execLdVxMem
  rw [hread]
  cases memRead s s.i (x.toNat + 1) with
  | some bytes => exact congrArg Host.Outcome.next (setBlock_setSt bytes s.advance b 0)
  | none => rfl

theorem execDrwVxVyN_ignoresSt (x y n : Nibble) : IgnoresSt (execDrwVxVyN x y n) := by
  intro s b
  have hread : memRead (s.setSt b) (s.setSt b).i n.toNat = memRead s s.i n.toNat := rfl
  unfold execDrwVxVyN
  rw [hread]
  cases memRead s s.i n.toNat <;> rfl

/-- From a state with another ST an instruction answers the same but for ST: `Fx18` overwrites it, the others keep
it. -/
theorem exec_setSt (i : Instr) (s : State) (b : Byte) :
    ∃ c, exec i (s.setSt b) = mapNext (·.setSt c) (exec i s) := by
  cases i with
  | ldStVx x => exact ⟨s.getV x, rfl⟩
  | ret => exact ⟨b, execRet_ignoresSt s b⟩
  | call nnn => exact ⟨b, execCall_ignoresSt nnn s b⟩
  | seVxNn x nn | sneVxNn x nn | seVxVy x y | sneVxVy x y =>
    exact ⟨b, congrArg Host.Outcome.next (skipIf_setSt s.advance b _)⟩
  | skpVx x | sknpVx x => exact ⟨b, skipOnKey_ignoresSt _ x _ s b⟩
  | drwVxVyN x y n => exact ⟨b, execDrwVxVyN_ignoresSt x y n s b⟩
  | ldVxK x => exact ⟨b, keyWait_ignoresSt _ x s b⟩
  | ldBVx x | ldMemVx x => exact ⟨b, storeAtI_ignoresSt _ _ s b⟩
  | ldVxMem x => exact ⟨b, execLdVxMem_ignoresSt x s b⟩
  | _ => exact ⟨b, rfl⟩

/-- A tick tests the fault record, PC and the word at PC, none of which is ST. -/
theorem step_setSt (s : State) (b : Byte) : ∃ c, step (s.setSt b) = mapNext (·.setSt c) (step s) := by
  have hfault : (s.setSt b).fault = s.fault := rfl
  have hpc : (s.setSt b).pc = s.pc := rfl
  have hmem : (s.setSt b).mem = s.mem := rfl
  unfold step tick
  rw [hfault, hpc, hmem]
  split_ifs
  · exact ⟨b, rfl⟩
  · exact ⟨b, rfl⟩
  · cases decodeWord (fetchWordAt s.mem s.pc.toNat) with
    | ok i => exact exec_setSt i s b
    | error e => exact ⟨b, rfl⟩

/-- A run that answers a state made a first step. -/
theorem run_succ_eq_next {m : Nat} {s t : State} (h : Host.Core.run Sys2Proof.core (m + 1) s = .next t) :
    ∃ u, step s = .next u ∧ Host.Core.run Sys2Proof.core m u = .next t := by
  rw [run_succ] at h
  cases hs : step s with
  | next u => rw [hs] at h; exact ⟨u, rfl, h⟩
  | fault e => rw [hs] at h; cases h
  | refused e => rw [hs] at h; cases h

/-- Settles O57, by induction on the number of steps: the steps of the two runs answer states that differ only in ST. -/
theorem noInstructionReadsTheSoundTimer : Obligations.NoInstructionReadsTheSoundTimer := by
  intro m
  induction m with
  | zero =>
    intro s t b h
    cases h
    exact ⟨b, rfl⟩
  | succ m ih =>
    intro s t b h
    obtain ⟨u, hu, hrun⟩ := run_succ_eq_next h
    obtain ⟨c, hc⟩ := step_setSt s b
    obtain ⟨d, hd⟩ := ih u t c hrun
    refine ⟨d, ?_⟩
    rw [run_succ, hc, hu]
    exact hd

end Sys2Proof.Machine

/-! ### Memory in canonical form is determined by its bytes -/

namespace Sys2Proof.Machine

/-- In a memory with rising addresses a listed cell is what its address reads. -/
theorem memGet_of_mem {m : Memory} (hm : m.Pairwise (fun c d => c.1 < d.1)) {c : Host.Cell} (hc : c ∈ m) :
    memGet m c.1 = c.2 := by
  induction m with
  | nil => cases hc
  | cons d m ih =>
    obtain ⟨hd, hm⟩ := List.pairwise_cons.1 hm
    obtain rfl | hc := List.mem_cons.1 hc
    · exact if_pos rfl
    · exact (if_neg (hd c hc).ne).trans (ih hm hc)

/-- An address that reads other than its reset contents is listed, with the byte it reads. -/
theorem mem_of_memGet_ne {m : Memory} {a : Nat} (h : memGet m a ≠ resetByte a) : (a, memGet m a) ∈ m := by
  induction m with
  | nil => exact absurd rfl h
  | cons d m ih =>
    unfold memGet at h ⊢
    split at h
    next hd => rw [if_pos hd, ← hd]; exact List.mem_cons_self
    next hd => rw [if_neg hd]; exact List.mem_cons_of_mem _ (ih h)

/-- The cells of a canonical memory are the addresses that read other than their reset contents, with what they read. -/
theorem mem_iff_of_wf {m : Memory} (hm : Memory.wf m) (c : Host.Cell) :
    c ∈ m ↔ memGet m c.1 = c.2 ∧ c.2 ≠ resetByte c.1 := by
  obtain ⟨hrising, hcells⟩ := hm
  constructor
  · intro hc
    exact ⟨memGet_of_mem hrising hc, (hcells c hc).2⟩
  · rintro ⟨hget, hne⟩
    have := mem_of_memGet_ne (hget.symm ▸ hne)
    rwa [hget] at this

theorem nodup_of_wf {m : Memory} (hm : Memory.wf m) : m.Nodup :=
  hm.1.imp fun hlt e => hlt.ne (congrArg Prod.fst e)

/-- Settles O55: the two lists have the same cells, in the same rising order. -/
theorem canonicalMemoriesWithEqualBytesAreEqual : Obligations.CanonicalMemoriesWithEqualBytesAreEqual := by
  intro m n hm hn h
  have hcells : ∀ c, c ∈ m ↔ c ∈ n := fun c => by rw [mem_iff_of_wf hm, mem_iff_of_wf hn, h]
  have hperm : m.Perm n := (List.perm_ext_iff_of_nodup (nodup_of_wf hm) (nodup_of_wf hn)).2 hcells
  exact hperm.eq_of_pairwise (fun c d _ _ hcd hdc => absurd hcd hdc.asymm) hm.1 hn.1

/-! ### The model's own stop, and reset -/

/-- Settles O12: of the cases of CALL and RET, the one with SP above 16. -/
theorem stackPointerAboveSixteenStops : Obligations.StackPointerAboveSixteenStops := by
  intro s nnn hsp
  constructor
  · obtain ⟨h, -⟩ | ⟨h, -⟩ | ⟨-, he⟩ := execCall_cases nnn s
    · omega
    · omega
    · exact he
  · obtain ⟨h, -⟩ | ⟨-, h, -⟩ | ⟨-, he⟩ := execRet_cases s
    · omega
    · omega
    · exact he

/-- The reset contents below 80 are the font table. -/
theorem resetByte_font {a : Nat} (ha : a < 80) : some (resetByte a) = fontTable[a]? := by
  have hlen : fontTable.length = 80 := rfl
  rw [resetByte, List.getD_eq_getElem _ _ (hlen ▸ ha), List.getElem?_eq_getElem]

theorem resetByte_above_font {a : Nat} (ha : 80 ≤ a) : resetByte a = 0 := by
  have hlen : fontTable.length = 80 := rfl
  exact List.getD_eq_default _ _ (hlen ▸ ha)

/-- Settles O48: `reset` and `new` answer the same state, built from nothing of the prior one but the model's count. -/
theorem resetRestoresTheResetState : Obligations.ResetRestoresTheResetState := by
  intro s
  refine ⟨opReset s, rfl, rfl, rfl, fun x => ?_, rfl, rfl, fun k => ?_, rfl, rfl, rfl, fun k => ?_, fun col row => ?_,
    fun a ha => resetByte_font ha, fun a ha => resetByte_above_font ha, rfl, rfl⟩
  · exact Vector.getElem_replicate x.isLt
  · exact Vector.getElem_replicate k.isLt
  · exact Vector.getElem_replicate k.isLt
  · exact fbGet_fbClear col row

end Sys2Proof.Machine

/-! ### Transfers at I: where they fault, and that a store is seen by the next fetch -/

namespace Sys2Proof.Machine

variable {s : State}

theorem storeAtI_of_fits {op : Word} {bytes : List Byte} (h : s.i.toNat + bytes.length ≤ 0x1000) :
    storeAtI op bytes s = .next { s.advance with mem := writeBytes s.mem s.i.toNat bytes } := by
  obtain ⟨-, he⟩ | ⟨hn, -⟩ := storeAtI_cases op bytes s
  · exact he
  · exact absurd (.inr h) hn

theorem storeAtI_of_not_fits {op : Word} {bytes : List Byte} (hne : 0 < bytes.length)
    (h : 0x1000 < s.i.toNat + bytes.length) :
    storeAtI op bytes s = .next (s.latch .memAddrOutOfBounds op (firstOutside s.i)) := by
  obtain ⟨hf, -⟩ | ⟨-, he⟩ := storeAtI_cases op bytes s
  · omega
  · exact he

/-- The address a failed transfer records is fixed by its number. -/
theorem firstOutside_eq {addr a : Word} (ha : a.toNat = max addr.toNat 0x1000) : firstOutside addr = a :=
  BitVec.eq_of_toNat_eq ((firstOutside_toNat addr).trans ha.symm)

@[simp] theorem length_bcdDigits (b : Byte) : (bcdDigits b).length = 3 := rfl

@[simp] theorem length_blockRegs (s : State) (x : Nibble) : (s.blockRegs x).length = x.toNat + 1 := by
  simp [State.blockRegs]

/-- Byte `k` of a block store is register `k`. -/
theorem getD_blockRegs (s : State) {x : Nibble} {k : Nat} (hk : k ≤ x.toNat) :
    (s.blockRegs x).getD k 0 = s.getV (BitVec.ofNat 4 k) := by
  have hlt : k < (s.blockRegs x).length := by rw [length_blockRegs]; omega
  rw [List.getD_eq_getElem _ _ hlt]
  simp [State.blockRegs]

/-- Settles O13: of the cases of each transfer, the one whose last byte lies outside memory. -/
theorem transfersOutsideMemoryFault : Obligations.TransfersOutsideMemoryFault := by
  intro s x y n a ha
  rw [← firstOutside_eq ha]
  refine ⟨fun h => ?_, fun h => ⟨?_, ?_⟩, fun hpos h => ?_⟩
  · exact storeAtI_of_not_fits (by simp) (by rw [length_bcdDigits]; omega)
  · exact storeAtI_of_not_fits (by simp) (by rw [length_blockRegs]; omega)
  · obtain ⟨hf, -⟩ | ⟨-, he⟩ := execLdVxMem_cases x s
    · omega
    · exact he
  · obtain ⟨hf, -⟩ | ⟨-, he⟩ := execDrwVxVyN_cases x y n s
    · omega
    · exact he

/-- The word at the start of a block just written is its first two bytes, the first as the high byte. -/
theorem fetchWordAt_writeBytes (m : Memory) (a : Nat) {bs : List Byte} (h : 2 ≤ bs.length) :
    fetchWordAt (writeBytes m a bs) a = joinBytes (bs.getD 0 0) (bs.getD 1 0) := by
  rw [fetchWordAt_eq, memGet_writeBytes, memGet_writeBytes, if_pos (by omega), if_pos (by omega), Nat.sub_self,
    Nat.add_sub_cancel_left]

/-- With no fault latched and a whole word at PC, a step is `exec` of what the word decodes to. -/
theorem step_eq_exec {i : Instr} (hf : s.NoFault) (hpc : s.pc.toNat ≤ 0xFFE)
    (hi : decodeWord (fetchWordAt s.mem s.pc.toNat) = .ok i) : step s = exec i s := by
  have hop := decodeWord_eq_ok.1 hi
  obtain ⟨h, -⟩ | ⟨-, h, -⟩ | ⟨-, -, h, -⟩ | ⟨-, -, j, hj, he⟩ := tick_cases s
  · exact absurd hf h
  · omega
  · cases hop.symm.trans h
  · cases hop.symm.trans hj
    exact he

/-- Settles O34: PC advances to I, where the word fetched is the first two bytes the store wrote. -/
theorem storeIsSeenByTheNextFetch : Obligations.StoreIsSeenByTheNextFetch := by
  intro s x hf hx hi hfits
  refine ⟨_, storeAtI_of_fits (by rw [length_blockRegs]; omega), fun i hdec => ?_⟩
  have hpc : (s.pc + 2).toNat = s.i.toNat := (toNat_add_two (by omega)).trans hi.symm
  have hfetch : fetchWordAt (writeBytes s.mem s.i.toNat (s.blockRegs x)) s.i.toNat =
      joinBytes (s.getV 0) (s.getV 1) := by
    rw [fetchWordAt_writeBytes _ _ (by rw [length_blockRegs]; omega), getD_blockRegs s (Nat.zero_le _),
      getD_blockRegs s hx]
    rfl
  refine step_eq_exec hf ?_ ?_
  · rw [advance_pc, hpc]
    omega
  · rw [advance_pc, hpc, hfetch]
    exact hdec

end Sys2Proof.Machine

/-! ### Encoding and decoding: the decoder by format, against the encoder, the opcode table and the six patterns -/

namespace Sys2Proof

variable {op : Word} {i : Instr}

/-! #### The encoder, then the decoder -/

/-- A word of family 8 is decoded by its last nibble. -/
theorem decodeOp_family8 (x y n : Nibble) : decodeOp (formatXYN 0x8 x y n) = decodeFamily8 x y n := by
  simp [decodeOp]

/-- A word of family E is decoded by its last byte. -/
theorem decodeOp_familyE (x : Nibble) (nn : Byte) : decodeOp (formatXNN 0xE x nn) = decodeFamilyE x nn := by
  simp [decodeOp]

/-- A word of family F is decoded by its last byte. -/
theorem decodeOp_familyF (x : Nibble) (nn : Byte) : decodeOp (formatXNN 0xF x nn) = decodeFamilyF x nn := by
  simp [decodeOp]

/-- The decoder reads back what the encoder lays out, format by format. -/
theorem decodeOp_encode (i : Instr) : decodeOp (encode i) = some i := by
  cases i with
  | nop | cls | ret => rfl
  | jp | call | ldINnn | jpV0Nnn => simp [encode, decodeOp]
  | seVxNn | sneVxNn | ldVxNn | addVxNn | rndVxNn => simp [encode, decodeOp]
  | seVxVy | sneVxVy | drwVxVyN => simp [encode, decodeOp]
  | ldVxVy x y | orVxVy x y | andVxVy x y | xorVxVy x y | addVxVy x y | subVxVy x y | shrVx x y | subnVxVy x y
  | shlVx x y => exact decodeOp_family8 x y _
  | skpVx x | sknpVx x => exact decodeOp_familyE x _
  | ldVxDt x | ldVxK x | ldDtVx x | ldStVx x | addIVx x | ldFVx x | ldBVx x | ldMemVx x | ldVxMem x =>
    exact decodeOp_familyF x _

/-- Settles O1: the decoder reads back the encoder's word, and the decoder on bytes is the decoder on the word. -/
theorem decodeOfEncodeIsTheInstruction : Obligations.DecodeOfEncodeIsTheInstruction := by
  intro i
  have hword : decodeWord (encode i) = .ok i := decodeWord_eq_ok.2 (decodeOp_encode i)
  exact ⟨hword, fun rest => by rw [decode_wordBytes, hword]⟩

/-! #### The decoder, then the encoder -/

theorem encode_of_decodeFamily0 (h : decodeFamily0 op = some i) : encode i = op := by
  unfold decodeFamily0 at h
  split_ifs at h with h0 h1 h2 <;> cases h
  · exact h0.symm
  · exact h1.symm
  · exact h2.symm

theorem encode_of_decodeFamily8 {x y n : Nibble} (h : decodeFamily8 x y n = some i) :
    encode i = formatXYN 0x8 x y n := by
  unfold decodeFamily8 at h
  split_ifs at h <;> cases h <;> subst n <;> rfl

theorem encode_of_decodeFamilyE {x : Nibble} {nn : Byte} (h : decodeFamilyE x nn = some i) :
    encode i = formatXNN 0xE x nn := by
  unfold decodeFamilyE at h
  split_ifs at h <;> cases h <;> subst nn <;> rfl

theorem encode_of_decodeFamilyF {x : Nibble} {nn : Byte} (h : decodeFamilyF x nn = some i) :
    encode i = formatXNN 0xF x nn := by
  unfold decodeFamilyF at h
  split_ifs at h <;> cases h <;> subst nn <;> rfl

/-- The encoder lays out again what the decoder read, family by family. -/
theorem encode_of_decodeOp (h : decodeOp op = some i) : encode i = op := by
  have hNNN := formatNNN_fields op
  have hXNN := formatXNN_fields op
  have hXYN := formatXYN_fields op
  rcases nibble_cases (fieldD1 op) with
    hd | hd | hd | hd | hd | hd | hd | hd | hd | hd | hd | hd | hd | hd | hd | hd <;>
    rw [hd] at hNNN hXNN hXYN <;>
    simp only [decodeOp, hd, BitVec.ofNat_eq_ofNat, BitVec.reduceEq, reduceIte, Option.ite_none_right_eq_some,
      Option.some.injEq] at h
  · exact encode_of_decodeFamily0 h
  · exact h ▸ hNNN
  · exact h ▸ hNNN
  · exact h ▸ hXNN
  · exact h ▸ hXNN
  · obtain ⟨hn, rfl⟩ := h
    rwa [hn] at hXYN
  · exact h ▸ hXNN
  · exact h ▸ hXNN
  · exact (encode_of_decodeFamily8 h).trans hXYN
  · obtain ⟨hn, rfl⟩ := h
    rwa [hn] at hXYN
  · exact h ▸ hNNN
  · exact h ▸ hNNN
  · exact h ▸ hXNN
  · exact h ▸ hXYN
  · exact (encode_of_decodeFamilyE h).trans hXNN
  · exact (encode_of_decodeFamilyF h).trans hXNN

/-- Settles O2: every family's instruction carries all the fields of the word. -/
theorem encodeOfDecodeIsTheWord : Obligations.EncodeOfDecodeIsTheWord :=
  fun _ _ h => encode_of_decodeOp (decodeWord_eq_ok.1 h)

end Sys2Proof

/-! #### The decoder and the opcode table -/

namespace Sys2Proof.Laws.EncodingBearsRow

/-- The row of every instruction is in the table and selects the instruction's word. -/
theorem forall_instr : ∀ i : Instr, Statement i
  | .nop => nop
  | .cls => cls
  | .ret => ret
  | .jp _ => jp _
  | .call _ => call _
  | .seVxNn _ _ => seVxNn _ _
  | .sneVxNn _ _ => sneVxNn _ _
  | .seVxVy _ _ => seVxVy _ _
  | .ldVxNn _ _ => ldVxNn _ _
  | .addVxNn _ _ => addVxNn _ _
  | .ldVxVy _ _ => ldVxVy _ _
  | .orVxVy _ _ => orVxVy _ _
  | .andVxVy _ _ => andVxVy _ _
  | .xorVxVy _ _ => xorVxVy _ _
  | .addVxVy _ _ => addVxVy _ _
  | .subVxVy _ _ => subVxVy _ _
  | .shrVx _ _ => shrVx _ _
  | .subnVxVy _ _ => subnVxVy _ _
  | .shlVx _ _ => shlVx _ _
  | .sneVxVy _ _ => sneVxVy _ _
  | .ldINnn _ => ldINnn _
  | .jpV0Nnn _ => jpV0Nnn _
  | .rndVxNn _ _ => rndVxNn _ _
  | .drwVxVyN _ _ _ => drwVxVyN _ _ _
  | .skpVx _ => skpVx _
  | .sknpVx _ => sknpVx _
  | .ldVxDt _ => ldVxDt _
  | .ldVxK _ => ldVxK _
  | .ldDtVx _ => ldDtVx _
  | .ldStVx _ => ldStVx _
  | .addIVx _ => addIVx _
  | .ldFVx _ => ldFVx _
  | .ldBVx _ => ldBVx _
  | .ldMemVx _ => ldMemVx _
  | .ldVxMem _ => ldVxMem _

end Sys2Proof.Laws.EncodingBearsRow

namespace Sys2Proof

variable {op : Word} {i : Instr}

/-- A mask that keeps the whole of a slice fixes it. -/
theorem extract_of_and {m p : Word} {lo len : Nat} (h : op &&& m = p)
    (hm : m.extractLsb' lo len = BitVec.allOnes len) : op.extractLsb' lo len = p.extractLsb' lo len := by
  rw [← h, BitVec.extractLsb'_and, hm, BitVec.and_allOnes]

theorem fieldD1_of_and {m p : Word} (h : op &&& m = p) (hm : fieldD1 m = 0xF) : fieldD1 op = fieldD1 p :=
  extract_of_and h hm

theorem fieldN_of_and {m p : Word} (h : op &&& m = p) (hm : fieldN m = 0xF) : fieldN op = fieldN p :=
  extract_of_and h hm

theorem fieldNn_of_and {m p : Word} (h : op &&& m = p) (hm : fieldNn m = 0xFF) : fieldNn op = fieldNn p :=
  extract_of_and h hm

/-! A word that a mask matches to a pattern, rebuilt from the pattern's fixed fields and the word's own operands. -/

theorem formatNNN_of_mask {p : Word} (h : op &&& 0xF000 = p) : formatNNN (fieldD1 p) (fieldNnn op) = op :=
  fieldD1_of_and h rfl ▸ formatNNN_fields op

theorem formatXNN_of_mask {p : Word} (h : op &&& 0xF000 = p) :
    formatXNN (fieldD1 p) (fieldX op) (fieldNn op) = op :=
  fieldD1_of_and h rfl ▸ formatXNN_fields op

theorem formatXYN_of_mask {p : Word} (h : op &&& 0xF000 = p) :
    formatXYN (fieldD1 p) (fieldX op) (fieldY op) (fieldN op) = op :=
  fieldD1_of_and h rfl ▸ formatXYN_fields op

theorem formatXY_of_mask {p : Word} (h : op &&& 0xF00F = p) :
    formatXYN (fieldD1 p) (fieldX op) (fieldY op) (fieldN p) = op :=
  fieldD1_of_and h rfl ▸ fieldN_of_and h rfl ▸ formatXYN_fields op

theorem formatXFN_of_mask {p : Word} (h : op &&& 0xF0FF = p) :
    formatXNN (fieldD1 p) (fieldX op) (fieldNn p) = op :=
  fieldD1_of_and h rfl ▸ fieldNn_of_and h rfl ▸ formatXNN_fields op

theorem eq_of_full_mask {p : Word} (h : op &&& 0xFFFF = p) : p = op :=
  h.symm.trans BitVec.and_allOnes

/-- A row is complete when it has, for every word it selects, an instruction with that word. -/
def OpcodeRow.Complete (r : OpcodeRow) : Prop :=
  ∃ f : Word → Instr, (∀ op, (f op).row = r) ∧ ∀ op, op &&& r.mask = r.pattern → encode (f op) = op

/-- Every row is complete: its instruction with the fields of the word as operands. The decoder has no part in it. -/
theorem opcodeTable_complete : ∀ r ∈ opcodeTable, r.Complete := by
  simp only [opcodeTable, List.cons_append, List.nil_append, List.forall_mem_cons]
  exact ⟨
    ⟨fun _ => .nop, fun _ => rfl, fun _ => eq_of_full_mask⟩,
    ⟨fun _ => .cls, fun _ => rfl, fun _ => eq_of_full_mask⟩,
    ⟨fun _ => .ret, fun _ => rfl, fun _ => eq_of_full_mask⟩,
    ⟨fun op => .jp (fieldNnn op), fun _ => rfl, fun _ => formatNNN_of_mask⟩,
    ⟨fun op => .call (fieldNnn op), fun _ => rfl, fun _ => formatNNN_of_mask⟩,
    ⟨fun op => .seVxNn (fieldX op) (fieldNn op), fun _ => rfl, fun _ => formatXNN_of_mask⟩,
    ⟨fun op => .sneVxNn (fieldX op) (fieldNn op), fun _ => rfl, fun _ => formatXNN_of_mask⟩,
    ⟨fun op => .seVxVy (fieldX op) (fieldY op), fun _ => rfl, fun _ => formatXY_of_mask⟩,
    ⟨fun op => .ldVxNn (fieldX op) (fieldNn op), fun _ => rfl, fun _ => formatXNN_of_mask⟩,
    ⟨fun op => .addVxNn (fieldX op) (fieldNn op), fun _ => rfl, fun _ => formatXNN_of_mask⟩,
    ⟨fun op => .ldVxVy (fieldX op) (fieldY op), fun _ => rfl, fun _ => formatXY_of_mask⟩,
    ⟨fun op => .orVxVy (fieldX op) (fieldY op), fun _ => rfl, fun _ => formatXY_of_mask⟩,
    ⟨fun op => .andVxVy (fieldX op) (fieldY op), fun _ => rfl, fun _ => formatXY_of_mask⟩,
    ⟨fun op => .xorVxVy (fieldX op) (fieldY op), fun _ => rfl, fun _ => formatXY_of_mask⟩,
    ⟨fun op => .addVxVy (fieldX op) (fieldY op), fun _ => rfl, fun _ => formatXY_of_mask⟩,
    ⟨fun op => .subVxVy (fieldX op) (fieldY op), fun _ => rfl, fun _ => formatXY_of_mask⟩,
    ⟨fun op => .shrVx (fieldX op) (fieldY op), fun _ => rfl, fun _ => formatXY_of_mask⟩,
    ⟨fun op => .subnVxVy (fieldX op) (fieldY op), fun _ => rfl, fun _ => formatXY_of_mask⟩,
    ⟨fun op => .shlVx (fieldX op) (fieldY op), fun _ => rfl, fun _ => formatXY_of_mask⟩,
    ⟨fun op => .sneVxVy (fieldX op) (fieldY op), fun _ => rfl, fun _ => formatXY_of_mask⟩,
    ⟨fun op => .ldINnn (fieldNnn op), fun _ => rfl, fun _ => formatNNN_of_mask⟩,
    ⟨fun op => .jpV0Nnn (fieldNnn op), fun _ => rfl, fun _ => formatNNN_of_mask⟩,
    ⟨fun op => .rndVxNn (fieldX op) (fieldNn op), fun _ => rfl, fun _ => formatXNN_of_mask⟩,
    ⟨fun op => .drwVxVyN (fieldX op) (fieldY op) (fieldN op), fun _ => rfl, fun _ => formatXYN_of_mask⟩,
    ⟨fun op => .skpVx (fieldX op), fun _ => rfl, fun _ => formatXFN_of_mask⟩,
    ⟨fun op => .sknpVx (fieldX op), fun _ => rfl, fun _ => formatXFN_of_mask⟩,
    ⟨fun op => .ldVxDt (fieldX op), fun _ => rfl, fun _ => formatXFN_of_mask⟩,
    ⟨fun op => .ldVxK (fieldX op), fun _ => rfl, fun _ => formatXFN_of_mask⟩,
    ⟨fun op => .ldDtVx (fieldX op), fun _ => rfl, fun _ => formatXFN_of_mask⟩,
    ⟨fun op => .ldStVx (fieldX op), fun _ => rfl, fun _ => formatXFN_of_mask⟩,
    ⟨fun op => .addIVx (fieldX op), fun _ => rfl, fun _ => formatXFN_of_mask⟩,
    ⟨fun op => .ldFVx (fieldX op), fun _ => rfl, fun _ => formatXFN_of_mask⟩,
    ⟨fun op => .ldBVx (fieldX op), fun _ => rfl, fun _ => formatXFN_of_mask⟩,
    ⟨fun op => .ldMemVx (fieldX op), fun _ => rfl, fun _ => formatXFN_of_mask⟩,
    ⟨fun op => .ldVxMem (fieldX op), fun _ => rfl, fun _ => formatXFN_of_mask⟩,
    List.forall_mem_nil _⟩

/-- A word that a row selects decodes to an instruction of that row. -/
theorem decodeOp_of_selects {r : OpcodeRow} (hr : r ∈ opcodeTable) (h : op &&& r.mask = r.pattern) :
    ∃ i, decodeOp op = some i ∧ i.row = r := by
  obtain ⟨f, hrow, hword⟩ := opcodeTable_complete r hr
  refine ⟨f op, ?_, hrow op⟩
  have hdec := decodeOp_encode (f op)
  rwa [hword op h] at hdec

/-- Settles O3: a decoded word is its instruction's encoding, which bears its row; and two rows that select one word
are both the row of what it decodes to. -/
theorem decodeSelectsByMaskAndMatch : Obligations.DecodeSelectsByMaskAndMatch := by
  refine ⟨rfl, fun op => ⟨fun i h => ?_, fun r hr h => ?_, fun r hr q hq h h' => ?_⟩⟩
  · obtain ⟨hmem, hsel⟩ := Laws.EncodingBearsRow.forall_instr i
    rw [encode_of_decodeOp (decodeWord_eq_ok.1 h)] at hsel
    exact ⟨hmem, eq_of_beq hsel⟩
  · obtain ⟨i, hi, hrow⟩ := decodeOp_of_selects hr h
    exact ⟨i, decodeWord_eq_ok.2 hi, hrow⟩
  · obtain ⟨i, hi, rfl⟩ := decodeOp_of_selects hr h
    obtain ⟨j, hj, rfl⟩ := decodeOp_of_selects hq h'
    cases hi.symm.trans hj
    rfl

/-! #### The words that select no instruction -/

theorem decodeWord_eq_unimplemented : decodeWord op = .error (.unimplementedOpcode op) ↔ decodeOp op = none := by
  unfold decodeWord; split <;> simp_all

theorem decodeFamily0_eq_none :
    decodeFamily0 op = none ↔ op.toNat ≠ 0x0000 ∧ op.toNat ≠ 0x00E0 ∧ op.toNat ≠ 0x00EE := by
  simp [ite_eq_iff, decodeFamily0, ← BitVec.toNat_inj]

theorem decodeFamily8_eq_none {x y n : Nibble} :
    decodeFamily8 x y n = none ↔ n.toNat ∈ [0x8, 0x9, 0xA, 0xB, 0xC, 0xD, 0xF] := by
  rcases nibble_cases n with
    rfl | rfl | rfl | rfl | rfl | rfl | rfl | rfl | rfl | rfl | rfl | rfl | rfl | rfl | rfl | rfl <;>
    simp [decodeFamily8]

theorem decodeFamilyE_eq_none {x : Nibble} {nn : Byte} :
    decodeFamilyE x nn = none ↔ nn.toNat ∉ [0x9E, 0xA1] := by
  simp [ite_eq_iff, decodeFamilyE, ← BitVec.toNat_inj]

theorem decodeFamilyF_eq_none {x : Nibble} {nn : Byte} :
    decodeFamilyF x nn = none ↔ nn.toNat ∉ [0x07, 0x0A, 0x15, 0x18, 0x1E, 0x29, 0x33, 0x55, 0x65] := by
  simp [ite_eq_iff, decodeFamilyF, ← BitVec.toNat_inj]

/-- Settles O4: the first nibble picks the family, and the family says which of its words it leaves out. -/
theorem unimplementedWordsAreTheSixPatterns : Obligations.UnimplementedWordsAreTheSixPatterns := by
  intro op
  have hd1 : op.toNat / 4096 = (fieldD1 op).toNat := by
    rw [fieldD1_toNat]; have := op.isLt; omega
  rw [decodeWord_eq_unimplemented, hd1, ← fieldN_toNat, ← fieldNn_toNat]
  rcases nibble_cases (fieldD1 op) with
    hd | hd | hd | hd | hd | hd | hd | hd | hd | hd | hd | hd | hd | hd | hd | hd <;>
    simp [decodeOp, hd, decodeFamily0_eq_none, decodeFamily8_eq_none, decodeFamilyE_eq_none, decodeFamilyF_eq_none,
      ← BitVec.toNat_inj]

end Sys2Proof

/-! ### The step: fetch, decode, execute -/

namespace Sys2Proof.Machine

variable {s : State} {op : Word}

/-- The word fetched is the one its two bytes spell, the byte at the lower address high. -/
theorem fetchWordAt_eq_of_bytes {m : Memory} {a : Nat}
    (h : op.toNat = 256 * (memGet m a).toNat + (memGet m (a + 1)).toNat) : fetchWordAt m a = op := by
  apply BitVec.eq_of_toNat_eq
  rw [fetchWordAt_eq, joinBytes_toNat, h, Nat.mul_comm]

/-- Settles O6: the fetched word is the one at PC. -/
theorem stepRunsTheDecodedInstruction : Obligations.StepRunsTheDecodedInstruction := by
  intro s op i hf hpc hop hi
  exact step_eq_exec hf hpc (by rwa [fetchWordAt_eq_of_bytes hop])

/-- With no fault latched, a fetch above 0xFFE latches its fault. -/
theorem step_of_fetch_outside (hf : s.NoFault) (hpc : 0xFFE < s.pc.toNat) :
    step s = .next (s.latch .fetchOutOfBounds 0x0000 s.pc) := by
  obtain ⟨h, -⟩ | ⟨-, -, he⟩ | ⟨-, h, -⟩ | ⟨-, h, -⟩ := tick_cases s
  · exact absurd hf h
  · exact he
  · omega
  · omega

/-- With no fault latched, a fetched word that selects no instruction latches its fault. -/
theorem step_of_unimplemented (hf : s.NoFault) (hpc : s.pc.toNat ≤ 0xFFE)
    (hn : decodeOp (fetchWordAt s.mem s.pc.toNat) = none) :
    step s = .next (s.latch .unimplementedOpcode (fetchWordAt s.mem s.pc.toNat) s.pc) := by
  obtain ⟨h, -⟩ | ⟨-, h, -⟩ | ⟨-, -, -, he⟩ | ⟨-, -, i, hi, -⟩ := tick_cases s
  · exact absurd hf h
  · omega
  · exact he
  · cases hn.symm.trans hi

/-- Settles O7: of the cases of a tick, the two that fault before the execute phase. -/
theorem stepFaultsBeforeExecute : Obligations.StepFaultsBeforeExecute := by
  intro s hf
  refine ⟨fun hpc => step_of_fetch_outside hf hpc, fun op hpc hop hn => ?_⟩
  have hfetch := fetchWordAt_eq_of_bytes hop
  have hnone := decodeWord_eq_unimplemented.1 hn
  rw [← hfetch] at hnone ⊢
  exact step_of_unimplemented hf hpc hnone

end Sys2Proof.Machine

/-! ### Control transfer (40_control.md R49 to R53) -/

namespace Sys2Proof.Machine

variable {s : State}

/-! #### The call stack, in the numbers of its slots -/

/-- The low four bits of SP, which a push takes as a slot number, are SP itself below 16. -/
theorem sp_setWidth_toNat (h : s.sp.toNat < 16) : (s.sp.setWidth 4).toNat = s.sp.toNat := by
  rw [BitVec.toNat_setWidth]; omega

theorem push_sp_toNat (h : s.sp.toNat < 16) (w : Word) : (s.push w).sp.toNat = s.sp.toNat + 1 := by
  rw [push_sp, BitVec.toNat_add]; simp; omega

/-- Below 16, a push writes the slot whose number is SP and no other. -/
theorem slot_push_toNat (h : s.sp.toNat < 16) (w : Word) (k : Nibble) :
    (s.push w).slot k = if k.toNat = s.sp.toNat then w else s.slot k := by
  simp only [slot_push, ← BitVec.toNat_inj, sp_setWidth_toNat h]

theorem dropTop_sp_toNat {n : Nat} (h : s.sp.toNat = n + 1) : s.dropTop.sp.toNat = n := by
  rw [dropTop_sp, BitVec.toNat_sub]; simp; omega

/-- The slot a pop reads is the one whose number is one less than SP. -/
theorem top_eq_slot {k : Nibble} (h : s.sp.toNat = k.toNat + 1) : s.top = s.slot k := by
  have hnum : (s.sp - 1).toNat = k.toNat := dropTop_sp_toNat h
  have hk : (s.sp - 1).setWidth 4 = k := BitVec.eq_of_toNat_eq (by rw [BitVec.toNat_setWidth]; omega)
  rw [State.top, hk]

/-! #### A return resumes after its call -/

/-- Settles O18: of the cases of CALL, the push. -/
theorem callPushesTheReturnAddress : Obligations.CallPushesTheReturnAddress := by
  intro s nnn hsp
  obtain ⟨h, -⟩ | ⟨-, he⟩ | ⟨h, -⟩ := execCall_cases nnn s
  · omega
  · refine ⟨_, he, zextAddr_toNat nnn, push_sp_toNat hsp (s.pc + 2), ?_, slot_push_toNat hsp (s.pc + 2)⟩
    exact (((Frame.refl _ _ s).setSlot (by simp) _ _).setSp (by simp) _).setPc _
  · omega

/-- Settles O19: of the cases of RET, the pop. -/
theorem returnPopsTheAddress : Obligations.ReturnPopsTheAddress := by
  intro s k hsp
  obtain ⟨h, -⟩ | ⟨-, -, he⟩ | ⟨h, -⟩ := execRet_cases s
  · omega
  · exact ⟨_, he, top_eq_slot hsp, dropTop_sp_toNat hsp, ((Frame.refl _ _ s).setSp (by simp) _).setPc _⟩
  · omega

/-- Settles O20, from O18 and O19: the return pops slot SP of the state before the call, which the call wrote and `w`
still holds. -/
theorem returnResumesAfterTheCall : Obligations.ReturnResumesAfterTheCall := by
  intro s nnn hsp
  obtain ⟨t, ht, -, htsp, -, htslot⟩ := callPushesTheReturnAddress s nnn hsp
  refine ⟨t, ht, fun w hwsp hwslot => ?_⟩
  have htop : (s.sp.setWidth 4).toNat = s.sp.toNat := sp_setWidth_toNat hsp
  obtain ⟨u, hu, hupc, husp, -, hkept⟩ := returnPopsTheAddress w (s.sp.setWidth 4) (by rw [hwsp]; omega)
  refine ⟨u, hu, ?_, BitVec.eq_of_toNat_eq (husp.trans htop), fun k hk => ?_⟩
  · calc u.pc = w.slot (s.sp.setWidth 4) := hupc
      _ = t.slot (s.sp.setWidth 4) := hwslot _ (by omega)
      _ = s.pc + 2 := by rw [htslot, if_pos htop]
  · calc u.slot k = w.slot k := hkept .stack (by simp) k
      _ = t.slot k := hwslot k (by omega)
      _ = s.slot k := by rw [htslot, if_neg (by omega)]

/-- Settles O11: of the cases of CALL and RET, the two faults. -/
theorem fullAndEmptyStackFault : Obligations.FullAndEmptyStackFault := by
  intro s nnn
  constructor <;> intro hsp
  · have h16 : s.sp.toNat = 16 := congrArg BitVec.toNat hsp
    obtain ⟨-, he⟩ | ⟨h, -⟩ | ⟨h, -⟩ := execCall_cases nnn s
    · exact he
    · omega
    · omega
  · have h0 : s.sp.toNat = 0 := congrArg BitVec.toNat hsp
    obtain ⟨-, he⟩ | ⟨h, -⟩ | ⟨h, -⟩ := execRet_cases s
    · exact he
    · omega
    · omega

/-! #### The no-op and the jumps -/

/-- Settles O15: the no-op is the fetch's advance alone, and no other word than its own decodes to it. -/
theorem nopOnlyAdvances : Obligations.NopOnlyAdvances := by
  refine ⟨fun s => rfl, fun op => ⟨fun h => ?_, fun h => ?_⟩⟩
  · exact (encodeOfDecodeIsTheWord op .nop h).symm
  · rw [h]
    exact (decodeOfEncodeIsTheInstruction .nop).1

/-- Settles O16. -/
theorem jumpSetsPc : Obligations.JumpSetsPc := by
  intro s nnn
  refine ⟨s.setPc (zextAddr nnn), rfl, zextAddr_toNat nnn, (Frame.refl _ _ s).setPc _, fun hpc => ?_⟩
  have hself : zextAddr nnn = s.pc := BitVec.eq_of_toNat_eq ((zextAddr_toNat nnn).trans hpc.symm)
  rw [hself]
  rfl

/-- The sum of a byte and a 12-bit address does not wrap at 16 bits. -/
theorem zextByte_add_zextAddr_toNat (b : Byte) (nnn : Addr12) :
    (zextByte b + zextAddr nnn).toNat = b.toNat + nnn.toNat := by
  rw [BitVec.toNat_add, zextByte_toNat, zextAddr_toNat]
  omega

/-- Settles O17. -/
theorem jumpByRegisterZeroAddsIt : Obligations.JumpByRegisterZeroAddsIt := by
  intro s nnn
  have hsum := zextByte_add_zextAddr_toNat (s.getV 0) nnn
  refine ⟨s.setPc (zextByte (s.getV 0) + zextAddr nnn), rfl, hsum, ?_, (Frame.refl _ _ s).setPc _⟩
  rw [setPc_pc, hsum]
  omega

/-! #### The words of the examples -/

/-- Settles O5, from O1: each word is the encoder's word of its instruction. -/
theorem wordsOfTheExamplesDecode : Obligations.WordsOfTheExamplesDecode := by
  have h (i : Instr) : decodeWord (encode i) = .ok i := (decodeOfEncodeIsTheInstruction i).1
  exact ⟨h .ret, h (.call 0x208), h (.sneVxNn 0xA 0x10), h (.shrVx 0x1 0xF), h (.ldMemVx 0x2),
    h (.drwVxVyN 0x0 0x1 0x2), h (.sknpVx 0x3), h (.ldDtVx 0x1)⟩

end Sys2Proof.Machine

/-! ### Register skips (41_skip.md R54 to R58) -/

namespace Sys2Proof.Machine

theorem advance_skipIf_frame (s : State) (c : Bool) : Frame [] [] s (s.advance.skipIf c) :=
  (Frame.refl _ _ s).advance.skipIf c

/-- Where a skip on equal values leaves PC, the values compared as numbers (R55, R57). -/
theorem advance_skipIf_beq_pc (s : State) (a b : Byte) :
    (s.advance.skipIf (a == b)).pc = if a.toNat = b.toNat then s.pc + 4 else s.pc + 2 := by
  simp only [advance_skipIf_pc, beq_iff_eq, BitVec.toNat_inj]

/-- Where a skip on different values leaves PC, the values compared as numbers (R56, R58). -/
theorem advance_skipIf_bne_pc (s : State) (a b : Byte) :
    (s.advance.skipIf (a != b)).pc = if a.toNat = b.toNat then s.pc + 2 else s.pc + 4 := by
  simp only [advance_skipIf_pc, bne_iff_ne, ne_eq, ite_not, BitVec.toNat_inj]

/-- Settles O21: each instruction is the advance and then a skip, on equal or on different values. -/
theorem skipsCompareRegisters : Obligations.SkipsCompareRegisters := by
  intro s x y nn
  refine ⟨?seVxNn, ?sneVxNn, ?seVxVy, ?sneVxVy⟩
  case seVxNn => exact ⟨_, rfl, advance_skipIf_frame s _, advance_skipIf_beq_pc s (s.getV x) nn⟩
  case sneVxNn => exact ⟨_, rfl, advance_skipIf_frame s _, advance_skipIf_bne_pc s (s.getV x) nn⟩
  case seVxVy => exact ⟨_, rfl, advance_skipIf_frame s _, advance_skipIf_beq_pc s (s.getV x) (s.getV y)⟩
  case sneVxVy => exact ⟨_, rfl, advance_skipIf_frame s _, advance_skipIf_bne_pc s (s.getV x) (s.getV y)⟩

end Sys2Proof.Machine

/-! ### Loads, arithmetic, logic, shifts and random bytes (42_alu.md R59 to R71) -/

namespace Sys2Proof.Machine

/-! #### The two shapes of an ALU instruction: the advance and one write, or the advance and a write with a flag -/

theorem advance_setV_frame (s : State) (x : Nibble) (b : Byte) : Frame [x] [] s (s.advance.setV x b) :=
  (Frame.refl _ _ s).advance.setV (by simp) b

theorem advance_setVWithFlag_frame (s : State) (x : Nibble) (b : Byte) (c : Bool) :
    Frame [x, 15] [] s (s.advance.setVWithFlag x b c) :=
  (Frame.refl _ _ s).advance.setVWithFlag (by simp) (by simp) b c

theorem getV_setVWithFlag_dest {x : Nibble} (hx : x ≠ 15) (t : State) (b : Byte) (c : Bool) :
    (t.setVWithFlag x b c).getV x = b := by
  rw [getV_setVWithFlag, if_neg hx, if_pos rfl]

/-- VF is written last (R71), so it holds the flag even where it is the destination (decision D6). -/
theorem getV_setVWithFlag_flag (t : State) (x : Nibble) (b : Byte) (c : Bool) :
    (t.setVWithFlag x b c).getV 15 = flagByte c :=
  getV_setV_self _ vF _

/-! #### Results and flags as numbers -/

theorem byte_sub_toNat (a b : Byte) : (a - b).toNat = (a.toNat + 256 - b.toNat) % 256 := by
  have hb := b.isLt
  rw [BitVec.toNat_sub]
  omega

theorem byte_shr_one_toNat (a : Byte) : (a >>> 1).toNat = a.toNat / 2 := by
  rw [BitVec.toNat_ushiftRight, Nat.shiftRight_one]

theorem byte_shl_one_toNat (a : Byte) : (a <<< 1).toNat = 2 * a.toNat % 256 := by
  rw [BitVec.toNat_shiftLeft, Nat.shiftLeft_eq]
  omega

theorem flagByte_carryFlag (a b : Byte) :
    flagByte (carryFlag a b) = if a.toNat + b.toNat > 255 then 1 else 0 := by
  simp only [flagByte, carryFlag, decide_eq_true_eq]

theorem flagByte_noBorrowFlag (a b : Byte) :
    flagByte (noBorrowFlag a b) = if a.toNat ≥ b.toNat then 1 else 0 := by
  simp only [flagByte, noBorrowFlag, decide_eq_true_eq]

theorem flagByte_toNat (c : Bool) : (flagByte c).toNat = c.toNat := by
  cases c <;> rfl

theorem shrFlag_toNat (a : Byte) : (shrFlag a).toNat = a.toNat % 2 := by
  rw [shrFlag, BitVec.getLsbD, Nat.toNat_testBit, pow_zero, Nat.div_one]

theorem shlFlag_toNat (a : Byte) : (shlFlag a).toNat = a.toNat / 128 := by
  have ha := a.isLt
  rw [shlFlag, BitVec.getLsbD, Nat.toNat_testBit]
  omega

/-! #### The instructions that write VF -/

/-- Settles O25. -/
theorem addSetsCarry : Obligations.AddSetsCarry := by
  intro s x y
  refine ⟨_, rfl, rfl, advance_setVWithFlag_frame s x _ _, fun hx => ?_, ?_⟩
  · rw [getV_setVWithFlag_dest hx, BitVec.toNat_add]
  · rw [getV_setVWithFlag_flag, flagByte_carryFlag]

/-- What `8xy5` and `8xy7` have in common: a difference written to `V[x]`, then the absence of a borrow to VF. -/
theorem advance_subtract {s t : State} {x : Nibble} {a b : Byte}
    (ht : t = s.advance.setVWithFlag x (a - b) (noBorrowFlag a b)) :
    t.pc = s.pc + 2 ∧ Frame [x, 15] [] s t ∧ (x ≠ 15 → (t.getV x).toNat = (a.toNat + 256 - b.toNat) % 256) ∧
      t.getV 15 = if a.toNat ≥ b.toNat then 1 else 0 := by
  subst ht
  refine ⟨rfl, advance_setVWithFlag_frame s x _ _, fun hx => ?_, ?_⟩
  · rw [getV_setVWithFlag_dest hx, byte_sub_toNat]
  · rw [getV_setVWithFlag_flag, flagByte_noBorrowFlag]

/-- Settles O26: the difference is `V[x] - V[y]`. -/
theorem subSetsNoBorrow : Obligations.SubSetsNoBorrow :=
  fun s x y => ⟨_, rfl, advance_subtract (a := s.getV x) (b := s.getV y) rfl⟩

/-- Settles O27: the difference is `V[y] - V[x]`. -/
theorem subnSetsNoBorrow : Obligations.SubnSetsNoBorrow :=
  fun s x y => ⟨_, rfl, advance_subtract (a := s.getV y) (b := s.getV x) rfl⟩

/-- Settles O28. -/
theorem shiftsSetTheDroppedBit : Obligations.ShiftsSetTheDroppedBit := by
  intro s x y
  refine ⟨⟨_, rfl, rfl, advance_setVWithFlag_frame s x _ _, fun hx => ?shrResult, ?shrFlag⟩,
    ⟨_, rfl, rfl, advance_setVWithFlag_frame s x _ _, fun hx => ?shlResult, ?shlFlag⟩⟩
  case shrResult => rw [getV_setVWithFlag_dest hx, byte_shr_one_toNat]
  case shrFlag => rw [getV_setVWithFlag_flag, flagByte_toNat, shrFlag_toNat]
  case shlResult => rw [getV_setVWithFlag_dest hx, byte_shl_one_toNat]
  case shlFlag => rw [getV_setVWithFlag_flag, flagByte_toNat, shlFlag_toNat]

/-! #### The instructions that write no flag -/

/-- Settles O24. -/
theorem logicIsBitwiseWithoutFlag : Obligations.LogicIsBitwiseWithoutFlag := by
  intro s x y
  refine ⟨⟨_, rfl, rfl, advance_setV_frame s x _, fun j => ?or⟩,
    ⟨_, rfl, rfl, advance_setV_frame s x _, fun j => ?and⟩,
    ⟨_, rfl, rfl, advance_setV_frame s x _, fun j => ?xor⟩⟩
  case or => rw [getV_setV_self, BitVec.getLsbD_or]
  case and => rw [getV_setV_self, BitVec.getLsbD_and]
  case xor => rw [getV_setV_self, BitVec.getLsbD_xor, Bool.bne_eq_xor]

/-- Settles O22. -/
theorem loadsSetTheRegister : Obligations.LoadsSetTheRegister := by
  intro s x y nn
  exact ⟨⟨_, rfl, rfl, getV_setV_self _ x nn, advance_setV_frame s x nn⟩,
    ⟨_, rfl, rfl, getV_setV_self _ x (s.getV y), advance_setV_frame s x (s.getV y)⟩⟩

/-- Settles O23. -/
theorem addImmediateWrapsWithoutFlag : Obligations.AddImmediateWrapsWithoutFlag := by
  intro s x nn
  refine ⟨_, rfl, rfl, ?_, advance_setV_frame s x _⟩
  rw [getV_setV_self, BitVec.toNat_add]

/-- Settles O29: the masked byte is written after one request to the source. -/
theorem randomByteIsMasked : Obligations.RandomByteIsMasked := by
  intro s x nn
  refine ⟨_, rfl, rfl, getV_setV_self _ x _, ?noBitOutsideMask, rfl, ?frame⟩
  case noBitOutsideMask =>
    rw [getV_setV_self, BitVec.and_assoc, BitVec.and_not_self]
    exact BitVec.and_zero
  case frame => exact ((Frame.refl _ _ s).advance.countDraw (by simp)).setV (by simp) _

end Sys2Proof.Machine

/-! ### The address register, and the transfers at I that fit (43_index_memory.md R72 to R77) -/

namespace Sys2Proof.Machine

/-! #### Writes of I -/

theorem advance_setI_frame (s : State) (w : Word) : Frame [] [.i] s (s.advance.setI w) :=
  (Frame.refl _ _ s).advance.setI (by simp) w

/-- Five times a byte does not wrap at 16 bits (R74). -/
theorem zextByte_mul_glyphSize_toNat (b : Byte) :
    (zextByte b * BitVec.ofNat 16 Config.glyphSize).toNat = 5 * b.toNat := by
  have hsize : (BitVec.ofNat 16 Config.glyphSize).toNat = 5 := rfl
  have hb := b.isLt
  rw [BitVec.toNat_mul, zextByte_toNat, hsize]
  omega

/-- Settles O30: each instruction is the advance and one write of I. -/
theorem addressRegisterWrites : Obligations.AddressRegisterWrites := by
  intro s x nnn
  refine ⟨⟨_, rfl, rfl, ?ldINnn, advance_setI_frame s _⟩, ⟨_, rfl, rfl, ?addIVx, advance_setI_frame s _⟩,
    ⟨_, rfl, rfl, ?ldFVx, advance_setI_frame s _⟩⟩
  case ldINnn => rw [setI_i, zextAddr_toNat]
  case addIVx => rw [setI_i, BitVec.toNat_add, zextByte_toNat]
  case ldFVx => rw [setI_i, zextByte_mul_glyphSize_toNat]

/-! #### Stores at I -/

/-- A store that fits, once for both store instructions: byte `k` of the block at I + `k`, every other byte and every
other piece of state as before (R75, R76; decisions D9, D10). -/
theorem storeAtI_stores (s : State) (op : Word) {bytes : List Byte} (h : s.i.toNat + bytes.length ≤ 0x1000) :
    ∃ t, storeAtI op bytes s = .next t ∧ t.pc = s.pc + 2 ∧
      (∀ k, k < bytes.length → memGet t.mem (s.i.toNat + k) = bytes.getD k 0) ∧
      (∀ a, a < s.i.toNat ∨ s.i.toNat + bytes.length ≤ a → memGet t.mem a = memGet s.mem a) ∧
      Frame [] [.mem] s t := by
  refine ⟨_, storeAtI_of_fits h, rfl, fun k hk => ?inside, fun a ha => ?outside,
    (Frame.refl _ _ s).advance.setMem (by simp) _⟩
  case inside => rw [memGet_writeBytes, if_pos (by omega), Nat.add_sub_cancel_left]
  case outside => rw [memGet_writeBytes, if_neg (by omega)]

/-- The bytes of a BCD store as numbers: the hundreds, the tens and the ones (R75). -/
theorem getD_bcdDigits_toNat (b : Byte) :
    ((bcdDigits b).getD 0 0).toNat = b.toNat / 100 ∧ ((bcdDigits b).getD 1 0).toNat = b.toNat / 10 % 10 ∧
      ((bcdDigits b).getD 2 0).toNat = b.toNat % 10 := by
  have hb := b.isLt
  have hsmall {n : Nat} (hn : n < 256) : (BitVec.ofNat 8 n).toNat = n :=
    (BitVec.toNat_ofNat n 8).trans (Nat.mod_eq_of_lt hn)
  exact ⟨hsmall (by omega), hsmall (by omega), hsmall (by omega)⟩

/-- Settles O31: the three bytes stored are the decimal digits. -/
theorem bcdStoresThreeDigits : Obligations.BcdStoresThreeDigits := by
  intro s x hfits
  obtain ⟨t, ht, hpc, hbytes, hothers, hframe⟩ :=
    storeAtI_stores s (encode (.ldBVx x)) (bytes := bcdDigits (s.getV x)) (by rw [length_bcdDigits]; omega)
  rw [length_bcdDigits] at hbytes hothers
  obtain ⟨hhundreds, htens, hones⟩ := getD_bcdDigits_toNat (s.getV x)
  rw [← hbytes 0 (by omega)] at hhundreds
  rw [← hbytes 1 (by omega)] at htens
  rw [← hbytes 2 (by omega)] at hones
  have hv := (s.getV x).isLt
  exact ⟨t, ht, hpc,
    ⟨_, _, _, by omega, by omega, by omega, by omega, hhundreds, htens, hones⟩,
    fun a ha => hothers a (by omega), hframe⟩

/-- Settles O32: byte `k` of the block stored is register `k`. -/
theorem blockStoreCopiesRegisters : Obligations.BlockStoreCopiesRegisters := by
  intro s x hfits
  obtain ⟨t, ht, hpc, hbytes, hothers, hframe⟩ :=
    storeAtI_stores s (encode (.ldMemVx x)) (bytes := s.blockRegs x) (by rw [length_blockRegs]; omega)
  rw [length_blockRegs] at hbytes hothers
  refine ⟨t, ht, hpc, fun k hk => ?registers, fun a ha => hothers a (by omega), hframe⟩
  case registers => rw [hbytes k.toNat (by omega), getD_blockRegs s hk, BitVec.ofNat_toNat, BitVec.setWidth_eq]

/-! #### The block load -/

/-- A block load writes no piece of state but general registers. -/
theorem setBlock_unchanged (bs : List Byte) (t : State) (k : Nat) (p : StatePart) :
    Unchanged t (t.setBlock k bs) p := by
  cases p with
  | stack => exact slot_congr (setBlock_stack bs t k)
  | key => exact keyAt_congr (setBlock_key bs t k)
  | _ => simp [Unchanged, State.pixel]

/-- Settles O33: of the cases of a block load, the one that fits, where byte `k` of the block read is the byte at
I + `k`. -/
theorem blockLoadFillsRegisters : Obligations.BlockLoadFillsRegisters := by
  intro s x hfits
  obtain ⟨-, he⟩ | ⟨hout, -⟩ := execLdVxMem_cases x s
  · refine ⟨_, he, setBlock_pc _ _ _, fun k => ?registers, fun p => ?rest⟩
    case registers =>
      have hx := x.isLt
      rw [getV_setBlock _ _ _ _ (by rw [length_readBytes]; omega), length_readBytes]
      by_cases hk : k.toNat ≤ x.toNat
      · rw [if_pos (by omega), if_pos hk, Nat.sub_zero, getD_readBytes _ _ _ _ (by omega)]
      · rw [if_neg (by omega), if_neg hk]
        rfl
    case rest => exact setBlock_unchanged _ s.advance 0 p
  · omega

end Sys2Proof.Machine

/-! ### Display: CLS, and DRW through the pixels its sprite covers (44_display.md R78 to R80) -/

namespace Sys2Proof.Machine

variable {s t : State} {x y n : Nibble}

/-- Settles O35: CLS is the advance and one write of the framebuffer. -/
theorem clearTurnsEveryPixelOff : Obligations.ClearTurnsEveryPixelOff := fun s =>
  ⟨_, rfl, rfl, fbGet_fbClear, (Frame.refl _ _ s).advance.setFb (by simp) _⟩

/-! #### The pixels of one draw -/

/-- The pixels under the set bits of the sprite that `Dxyn` draws in state `s`, each listed once. -/
def State.drawnPixels (s : State) (x y n : Nibble) : List (BitVec 6 × BitVec 5) :=
  spritePixels (s.getV x).toNat (s.getV y).toNat 0 (readBytes s.mem s.i.toNat n.toNat)

/-- A sprite has at most 15 rows, so it does not meet itself when it wraps around. -/
theorem length_spriteRows_le (s : State) (n : Nibble) : (readBytes s.mem s.i.toNat n.toNat).length ≤ 32 := by
  have hn := n.isLt
  rw [length_readBytes]
  omega

theorem drawnPixels_nodup (s : State) (x y n : Nibble) : (s.drawnPixels x y n).Nodup :=
  spritePixels_nodup _ ((Nat.zero_add _).trans_le (length_spriteRows_le s n))

theorem eq_spritePixel_iff {col : BitVec 6} {row : BitVec 5} {vx vy r c : Nat} :
    (col, row) = (spriteCol vx c, spriteRow vy r) ↔
      col.toNat = (vx + c) % 64 ∧ row.toNat = (vy + r) % 32 := by
  rw [Prod.mk.injEq, ← BitVec.toNat_inj, ← BitVec.toNat_inj, spriteCol, spriteRow, BitVec.toNat_ofNat,
    BitVec.toNat_ofNat]

/-- The pixels the model's loops list are those of the geometric description (R79). -/
theorem mem_drawnPixels {col : BitVec 6} {row : BitVec 5} :
    (col, row) ∈ s.drawnPixels x y n ↔ SpriteCovers s x y n col row := by
  rw [State.drawnPixels, mem_spritePixels, length_readBytes]
  constructor
  · rintro ⟨r, hr, c, hc, hbit, he⟩
    rw [getD_readBytes _ _ _ _ hr] at hbit
    rw [Nat.zero_add] at he
    exact ⟨r, c, hr, hc, hbit, eq_spritePixel_iff.1 he⟩
  · rintro ⟨r, c, hr, hc, hbit, he⟩
    refine ⟨r, hr, c, hc, ?_, ?_⟩
    · rwa [getD_readBytes _ _ _ _ hr]
    · rw [Nat.zero_add]
      exact eq_spritePixel_iff.2 he

/-- The sprite's place and bytes are not among what a draw writes, unless VF is a coordinate. -/
theorem SpriteCovers.of_frame (h : Frame [15] [.fb] s t) (hx : x ≠ 15) (hy : y ≠ 15) (col : BitVec 6)
    (row : BitVec 5) : SpriteCovers t x y n col row ↔ SpriteCovers s x y n col row := by
  obtain ⟨hregs, hparts⟩ := h
  have hi : t.i = s.i := hparts .i (by simp)
  have hmem : ∀ a, memGet t.mem a = memGet s.mem a := hparts .mem (by simp)
  simp only [SpriteCovers, hregs x (by simpa using hx), hregs y (by simpa using hy), hi, hmem]

/-! #### What a draw does -/

/-- A draw whose rows fit in memory flips the pixels it draws and no other, and its flag is 1 when one of them was on
(R79; decisions D6, D9, D10). -/
theorem exec_drw (x y : Nibble) (h : n.toNat = 0 ∨ s.i.toNat + n.toNat - 1 ≤ 0xFFF) :
    ∃ t, exec (.drwVxVyN x y n) s = .next t ∧ t.pc = s.pc + 2 ∧ Frame [15] [.fb] s t ∧
      (∀ col row, t.pixel col row =
        if (col, row) ∈ s.drawnPixels x y n then !s.pixel col row else s.pixel col row) ∧
      ∃ hit, t.getV 15 = flagByte hit ∧ (hit = true ↔ ∃ p ∈ s.drawnPixels x y n, s.pixel p.1 p.2 = true) := by
  have hrows := length_spriteRows_le s n
  obtain ⟨-, drawn, hdrawn, he⟩ | ⟨hout, -⟩ := execDrwVxVyN_cases x y n s
  · subst hdrawn
    exact ⟨_, he, rfl, ((Frame.refl _ _ s).advance.setFb (by simp) _).setV (by simp) _,
      fbGet_drawSprite s.fb _ _ hrows, _, getV_setV_self _ vF _, drawSprite_hit s.fb _ _ hrows⟩
  · omega

/-- Settles O36: the pixels drawn are the pixels the sprite covers. -/
theorem drawXorsTheSprite : Obligations.DrawXorsTheSprite := by
  intro s x y n hfits
  obtain ⟨t, ht, hpc, hframe, hpixels, hit, hflag, hhit⟩ := exec_drw x y hfits
  refine ⟨t, ht, hpc, hframe, fun col row => ⟨fun hc => ?covered, fun hc => ?uncovered⟩, ?collision, ?noCollision⟩
  case covered => rw [hpixels, if_pos (mem_drawnPixels.2 hc)]
  case uncovered => rw [hpixels, if_neg (mt mem_drawnPixels.1 hc)]
  case collision =>
    rintro ⟨col, row, hc, hon⟩
    rw [hflag, hhit.2 ⟨(col, row), mem_drawnPixels.2 hc, hon⟩]
    rfl
  case noCollision =>
    intro hoff
    have hno : ¬ hit = true := fun hh => by
      obtain ⟨⟨col, row⟩, hp, hon⟩ := hhit.1 hh
      exact Bool.false_ne_true ((hoff col row (mem_drawnPixels.1 hp)).symm.trans hon)
    rw [hflag, Bool.eq_false_of_not_eq_true hno]
    rfl

/-- Settles O37: the second draw covers the same pixels, so it flips each of them back, and the pixels it finds on are
those the first found off. -/
theorem doubleDrawRestoresTheFramebuffer : Obligations.DoubleDrawRestoresTheFramebuffer := by
  intro s x y n hx hy hfits
  obtain ⟨t, ht, -, hframe, hfirst, -, -⟩ := drawXorsTheSprite s x y n hfits
  have ⟨_, hparts⟩ := hframe
  have hi : t.i = s.i := hparts .i (by simp)
  obtain ⟨u, hu, -, -, hsecond, hcollision, hnoCollision⟩ := drawXorsTheSprite t x y n (by rwa [hi])
  simp only [SpriteCovers.of_frame hframe hx hy] at hsecond hcollision hnoCollision
  refine ⟨t, u, ht, hu, framebuffer_ext fun col row => ?restored, ?someOff, fun hon => ?allOn⟩
  case restored =>
    change u.pixel col row = s.pixel col row
    obtain ⟨hflip, hkeep⟩ := hfirst col row
    obtain ⟨hflip', hkeep'⟩ := hsecond col row
    by_cases hc : SpriteCovers s x y n col row
    · rw [hflip' hc, hflip hc, Bool.not_not]
    · rw [hkeep' hc, hkeep hc]
  case someOff =>
    rintro ⟨col, row, hc, hoff⟩
    exact hcollision ⟨col, row, hc, by rw [(hfirst col row).1 hc, hoff]; rfl⟩
  case allOn => exact hnoCollision fun col row hc => by rw [(hfirst col row).1 hc, hon col row hc]; rfl

/-! #### How many pixels a draw flips -/

/-- The number of set bits of a byte. -/
def setBits (b : Byte) : Nat := ((List.range 8).filter (fun k => b.getLsbD k)).length

/-- A sprite row draws one pixel per set bit: its columns run over the bits from 7 down. -/
theorem length_rowPixels (vx vy r : Nat) (row : Byte) : (rowPixels vx vy r row).length = setBits row := by
  have hrev : (List.range 8).map (7 - ·) = (List.range 8).reverse := by decide
  calc (rowPixels vx vy r row).length
      = (((List.range 8).map (7 - ·)).filter (fun k => row.getLsbD k)).length := by
        rw [rowPixels, List.length_map, List.filter_map, List.length_map]
        rfl
    _ = setBits row := by rw [hrev, List.filter_reverse, List.length_reverse, setBits]

theorem length_spritePixels (vx vy : Nat) (rows : List Byte) : ∀ r,
    (spritePixels vx vy r rows).length = (rows.map setBits).sum := by
  induction rows with
  | nil => exact fun _ => rfl
  | cons row rows ih =>
    intro r
    rw [spritePixels, List.length_append, length_rowPixels, ih, List.map_cons, List.sum_cons]

theorem readBytes_eq_map_range (m : Memory) (a n : Nat) :
    readBytes m a n = (List.range n).map (fun k => memGet m (a + k)) := by
  refine List.ext_getElem (by simp) fun k hk _ => ?_
  rw [length_readBytes] at hk
  rw [List.getElem_map, List.getElem_range, ← getD_readBytes m n a k hk, List.getD_eq_getElem]

theorem length_drawnPixels (s : State) (x y n : Nibble) : (s.drawnPixels x y n).length =
    ((List.range n.toNat).map (fun r => setBits (memGet s.mem (s.i.toNat + r)))).sum := by
  rw [State.drawnPixels, length_spritePixels, readBytes_eq_map_range, List.map_map]
  rfl

/-- The column and row of place `k = col + 64*row` of the framebuffer (20_memory.md R39). -/
def placeOf (k : Nat) : BitVec 6 × BitVec 5 := (BitVec.ofNat 6 (k % 64), BitVec.ofNat 5 (k / 64))

theorem placeOf_col_add_row (p : BitVec 6 × BitVec 5) : placeOf (p.1.toNat + 64 * p.2.toNat) = p := by
  have hc := p.1.isLt
  have hr := p.2.isLt
  refine Prod.ext (BitVec.eq_of_toNat_eq ?_) (BitVec.eq_of_toNat_eq ?_) <;>
    simp only [placeOf, BitVec.toNat_ofNat] <;> omega

theorem placeOf_inj {j k : Nat} (hj : j < 2048) (hk : k < 2048) (h : placeOf j = placeOf k) : j = k := by
  simp only [placeOf, Prod.mk.injEq, ← BitVec.toNat_inj, BitVec.toNat_ofNat] at h
  omega

/-- Counting, among the 2048 places, the pixels of a list that holds none twice gives its length. -/
theorem length_filter_placeOf {ps : List (BitVec 6 × BitVec 5)} (h : ps.Nodup) :
    ((List.range 2048).filter (fun k => placeOf k ∈ ps)).length = ps.length := by
  have hplaces : ((List.range 2048).map placeOf).Nodup := List.nodup_range.map_on fun j hj k hk =>
    placeOf_inj (List.mem_range.1 hj) (List.mem_range.1 hk)
  have hall : ∀ p, p ∈ (List.range 2048).map placeOf := fun p =>
    List.mem_map.2 ⟨_, List.mem_range.2 (by have := p.1.isLt; have := p.2.isLt; omega), placeOf_col_add_row p⟩
  have hperm : (((List.range 2048).map placeOf).filter (· ∈ ps)).Perm ps :=
    (List.perm_ext_iff_of_nodup (hplaces.filter _) h).2 fun p => by simp [List.mem_filter, hall p]
  rw [← hperm.length_eq, List.filter_map, List.length_map]
  rfl

/-- Settles O38: the pixels that differ are those drawn, none of which is drawn twice. -/
theorem drawFlipsOnePixelPerSetBit : Obligations.DrawFlipsOnePixelPerSetBit := by
  intro s t x y n hfits ht
  obtain ⟨t', ht', -, -, hpixels, -⟩ := exec_drw x y hfits
  cases ht'.symm.trans ht
  have hdiffer : ∀ p : BitVec 6 × BitVec 5,
      (t.pixel p.1 p.2 != s.pixel p.1 p.2) = decide (p ∈ s.drawnPixels x y n) := fun p => by
    rw [hpixels]
    by_cases hp : p ∈ s.drawnPixels x y n <;> simp [hp]
  refine Eq.trans ?_ ((length_filter_placeOf (drawnPixels_nodup s x y n)).trans (length_drawnPixels s x y n))
  exact congrArg List.length (List.filter_congr fun k _ => hdiffer (placeOf k))

end Sys2Proof.Machine

/-! ### Keypad: the key skips and the key wait (45_keypad.md R81 to R83) -/

namespace Sys2Proof.Machine

variable {s : State} {x k : Nibble}

/-! #### The key skips -/

/-- A key number up to 15 names the latch of its own value. -/
theorem keyIndex_eq {b : Byte} (h : b.toNat = k.toNat) : keyIndex b = k := by
  have hk := k.isLt
  exact BitVec.eq_of_toNat_eq (by rw [keyIndex, BitVec.toNat_setWidth]; omega)

theorem skipOnKey_of_latch (h : (s.getV x).toNat = k.toNat) (op : Word) (level : Bool) :
    skipOnKey op x level s = .next (s.advance.skipIf (s.keyAt k == level)) := by
  have hk := k.isLt
  obtain ⟨-, he⟩ | ⟨hout, -⟩ := skipOnKey_cases op x level s
  · rwa [keyIndex_eq h] at he
  · omega

theorem skipOnKey_of_no_latch (h : (s.getV x).toNat > 15) (op : Word) (level : Bool) :
    skipOnKey op x level s = .next (s.latch .keyIndexOutOfRange op s.pc) := by
  obtain ⟨hin, -⟩ | ⟨-, he⟩ := skipOnKey_cases op x level s
  · omega
  · exact he

/-- Settles O39: each key skip is the advance and then a skip, on a latch that is set or on one that is not. -/
theorem keySkipsTestTheLatch : Obligations.KeySkipsTestTheLatch := by
  intro s x k hv
  refine ⟨⟨_, skipOnKey_of_latch hv _ true, advance_skipIf_frame s _, ?skp⟩,
    ⟨_, skipOnKey_of_latch hv _ false, advance_skipIf_frame s _, ?sknp⟩⟩
  case skp => rw [advance_skipIf_pc, beq_true]
  case sknp =>
    rw [advance_skipIf_pc, beq_false]
    cases s.keyAt k <;> rfl

/-- Settles O14: of the cases of a key skip, the fault. -/
theorem keyNumberAboveFifteenFaults : Obligations.KeyNumberAboveFifteenFaults := fun _ _ hv =>
  ⟨skipOnKey_of_no_latch hv _ true, skipOnKey_of_no_latch hv _ false⟩

/-! #### The key wait -/

/-- A pressed key with none pressed below it is the one found. -/
theorem lowestKey_of_least (hk : s.keyAt k = true) (hleast : ∀ j : Nibble, j.toNat < k.toNat → s.keyAt j = false) :
    s.lowestKey = some k := by
  cases h : s.lowestKey with
  | none => exact absurd hk (by simp [(lowestKey_eq_none s).1 h k])
  | some j =>
    obtain ⟨hj, hjleast⟩ := lowestKey_eq_some s h
    have hkj : ¬ k.toNat < j.toNat := fun hlt => Bool.false_ne_true ((hjleast k hlt).symm.trans hk)
    have hjk : ¬ j.toNat < k.toNat := fun hlt => Bool.false_ne_true ((hleast j hlt).symm.trans hj)
    exact congrArg some (BitVec.eq_of_toNat_eq (by omega))

theorem keyWait_of_least (hk : s.keyAt k = true) (hleast : ∀ j : Nibble, j.toNat < k.toNat → s.keyAt j = false)
    (clobber : Bool) (x : Nibble) : keyWait clobber x s = .next (s.advance.setV x (k.setWidth 8)) := by
  rw [keyWait, lowestKey_of_least hk hleast]

theorem keyWait_of_no_key (hnone : ∀ k, s.keyAt k = false) (clobber : Bool) (x : Nibble) :
    keyWait clobber x s = .next (if clobber then s.setV x 0x00 else s) := by
  obtain ⟨k, hk, -⟩ | ⟨-, he⟩ := keyWait_cases clobber x s
  · cases ((lowestKey_eq_none s).2 hnone).symm.trans hk
  · exact he

/-- Settles O40: the two cases of a key wait, each for both values of the parameter. -/
theorem keyWaitTakesTheLeastKey : Obligations.KeyWaitTakesTheLeastKey := by
  intro s x
  refine ⟨fun k hk hleast => ?pressed, fun hnone => ?none⟩
  case pressed =>
    have htaken (clobber : Bool) := keyWait_of_least hk hleast clobber x
    refine ⟨⟨_, htaken true, rfl, ?_, advance_setV_frame s x _⟩, (htaken false).trans (htaken true).symm⟩
    rw [getV_setV_self, BitVec.toNat_setWidth_of_le (by decide)]
  case none =>
    have hwaits (clobber : Bool) := keyWait_of_no_key hnone clobber x
    exact ⟨⟨_, hwaits true, rfl, getV_setV_self s x _, (Frame.refl _ _ s).setV (by simp) _⟩, hwaits false⟩

/-! #### Ticks of a key wait -/

/-- The next tick executes a key wait into `V[x]`. -/
def AtKeyWait (x : Nibble) (s : State) : Prop :=
  s.NoFault ∧ s.pc.toNat ≤ 0xFFE ∧ fetchWordAt s.mem s.pc.toNat = encode (.ldVxK x)

theorem AtKeyWait.step_eq (h : AtKeyWait x s) : step s = exec (.ldVxK x) s := by
  obtain ⟨hf, hpc, hop⟩ := h
  exact step_eq_exec hf hpc (by rw [hop, (decodeOfEncodeIsTheInstruction _).1])

/-- A wait reads none of the registers, so the write of `V[x]` leaves the machine at it. -/
theorem AtKeyWait.setV (h : AtKeyWait x s) (b : Byte) : AtKeyWait x (s.setV x b) := h

/-- A change of the latches alone leaves the machine at its wait. -/
theorem AtKeyWait.of_eq_with_key {t w : State} (h : AtKeyWait x t) (hw : w = { t with key := w.key }) :
    AtKeyWait x w := by
  rw [hw]
  exact h

/-- With no key pressed a wait goes on for any number of ticks, each of which writes `V[x]` alone; `s` is the state the
frame is measured from. -/
theorem run_of_atKeyWait (m : Nat) : ∀ {t : State}, AtKeyWait x t → (∀ k, t.keyAt k = false) → Frame [x] [] s t →
    ∃ u, Host.Core.run Sys2Proof.core m t = .next u ∧ u.pc = t.pc ∧ AtKeyWait x u ∧ Frame [x] [] s u := by
  induction m with
  | zero => exact fun ht _ hframe => ⟨_, rfl, rfl, ht, hframe⟩
  | succ m ih =>
    intro t ht hnone hframe
    have hstep : step t = .next (t.setV x 0x00) := ht.step_eq.trans (keyWait_of_no_key hnone true x)
    rw [run_succ, hstep]
    exact ih (ht.setV 0x00) hnone (hframe.setV (by simp) 0x00)

/-- Settles O41: by induction on the number of ticks the machine is still at the wait, and O40 gives the tick that ends
it. -/
theorem keyWaitHoldsUntilAKeyIsPressed : Obligations.KeyWaitHoldsUntilAKeyIsPressed := by
  intro m s x hf hpc hop hnone
  obtain ⟨t, hrun, htpc, ht, hframe⟩ := run_of_atKeyWait m ⟨hf, hpc, hop⟩ hnone (Frame.refl _ _ s)
  refine ⟨t, hrun, htpc, hframe, fun w k hw hk hleast => ?_⟩
  obtain ⟨⟨u, hu, hupc, huv, -⟩, -⟩ := (keyWaitTakesTheLeastKey w x).1 k hk hleast
  have hwpc : w.pc = s.pc := (congrArg State.pc hw).trans htpc
  exact ⟨u, (ht.of_eq_with_key hw).step_eq.trans hu, by rw [hupc, hwpc], huv⟩

end Sys2Proof.Machine

/-! ### Timers: the loads of DT and ST, and their countdown (46_timer.md R84 to R86, 60_exceptions.md R96, R98) -/

namespace Sys2Proof.Machine

variable {s : State}

/-! #### Timer ticks -/

/-- `m` counts of a timer in plain arithmetic: minus `m`, clamped at 0 (R85). -/
theorem countDown_iterate_toNat (m : Nat) (b : Byte) : (countDown^[m] b).toNat = b.toNat - m := by
  induction m with
  | zero => rfl
  | succ m ih => rw [Function.iterate_succ_apply', countDown_toNat, ih, Nat.sub_sub]

theorem opTickTimers_of_noFault (hf : s.NoFault) :
    opTickTimers s = { s with dt := countDown s.dt, st := countDown s.st } :=
  if_neg (not_not_intro hf)

/-- A timer tick latches no fault, so `m` of them count each timer down `m` times. -/
theorem opTickTimers_iterate (hf : s.NoFault) (m : Nat) :
    opTickTimers^[m] s = { s with dt := countDown^[m] s.dt, st := countDown^[m] s.st } := by
  induction m with
  | zero => rfl
  | succ m ih =>
    rw [Function.iterate_succ_apply', ih, opTickTimers_of_noFault (by exact hf),
      Function.iterate_succ_apply', Function.iterate_succ_apply']

theorem opTickTimers_iterate_noFault (hf : s.NoFault) (m : Nat) : (opTickTimers^[m] s).NoFault := by
  rw [opTickTimers_iterate hf]
  exact hf

theorem opTickTimers_iterate_dt (hf : s.NoFault) (m : Nat) : (opTickTimers^[m] s).dt.toNat = s.dt.toNat - m := by
  rw [opTickTimers_iterate hf, countDown_iterate_toNat]

theorem opTickTimers_iterate_st (hf : s.NoFault) (m : Nat) : (opTickTimers^[m] s).st.toNat = s.st.toNat - m := by
  rw [opTickTimers_iterate hf, countDown_iterate_toNat]

theorem beep_eq_decide (s : State) : beep s = decide (s.st.toNat = 1) :=
  decide_eq_decide.2 BitVec.toNat_inj.symm

theorem perform_tickTimers_of_noFault (hf : s.NoFault) :
    perform .tickTimers s = .next (opTickTimers s, .okBeep (beep s)) := by
  rw [perform, if_pos hf]

/-- The timer tick that follows `m` others reports the notification exactly when it takes ST from 1 to 0 (R98). -/
theorem perform_tickTimers_iterate (hf : s.NoFault) (m : Nat) :
    perform .tickTimers (opTickTimers^[m] s) =
      .next (opTickTimers^[m + 1] s, .okBeep (decide (s.st.toNat = m + 1))) := by
  have hlast : (opTickTimers^[m] s).st.toNat = 1 ↔ s.st.toNat = m + 1 := by
    rw [opTickTimers_iterate_st hf]
    omega
  rw [perform_tickTimers_of_noFault (opTickTimers_iterate_noFault hf m), beep_eq_decide, decide_eq_decide.2 hlast,
    Function.iterate_succ_apply']

/-! #### The three instructions -/

/-- Settles O42: the instruction is the advance and one write of a register. -/
theorem readTimerLoadsTheRegister : Obligations.ReadTimerLoadsTheRegister := fun s x =>
  ⟨_, rfl, rfl, getV_setV_self _ x _, advance_setV_frame s x _⟩

/-- Settles O43: the instruction is the advance and one write of DT, which the timer ticks then count down. -/
theorem delayTimerIsSetAndCountsDown : Obligations.DelayTimerIsSetAndCountsDown := fun s x =>
  ⟨_, rfl, rfl, rfl, (Frame.refl _ _ s).advance.setDt (by simp) _, fun hf m =>
    opTickTimers_iterate_dt (s := s.advance.setDt (s.getV x)) hf m⟩

/-- Settles O44: the instruction is the advance and one write of ST, from which the timer ticks then count. -/
theorem soundIsReportedOnTheLastCount : Obligations.SoundIsReportedOnTheLastCount := fun s x =>
  ⟨_, rfl, rfl, rfl, (Frame.refl _ _ s).advance.setSt (by simp) _, fun hf m =>
    ⟨_, perform_tickTimers_iterate (s := s.advance.setSt (s.getV x)) hf m⟩⟩

end Sys2Proof.Machine

/-! ### Every schedule completes (60_exceptions.md R95): operation by operation, and then along the schedule -/

namespace Sys2Proof.Machine

variable {s t : State}

/-! #### What each host operation answers (60_exceptions.md R92, R99, R101) -/

theorem okOrErr_of_noFault (hf : s.NoFault) : okOrErr s = .ok := if_pos hf

theorem okOrErr_of_fault (hf : ¬ s.NoFault) : okOrErr s = .err s.fault := if_neg hf

theorem opTickTimers_of_fault (hf : ¬ s.NoFault) : opTickTimers s = s := if_pos hf

theorem opLoadProgram_of_fault (hf : ¬ s.NoFault) (bytes : List Byte) : opLoadProgram bytes s = s := if_pos hf

theorem opLoadProgram_of_fits (hf : s.NoFault) {bytes : List Byte} (h : bytes.length ≤ 3584) :
    opLoadProgram bytes s = { s with mem := writeBytes s.mem 0x200 bytes } :=
  (if_neg (not_not_intro hf)).trans (if_neg h.not_gt)

theorem opLoadProgram_of_not_fits (hf : s.NoFault) {bytes : List Byte} (h : 3584 < bytes.length) :
    opLoadProgram bytes s = s.latch .programTooLarge 0x0000 0x1000 :=
  (if_neg (not_not_intro hf)).trans (if_pos h)

theorem opSetKey_of_fault (hf : ¬ s.NoFault) (index : Nat) (pressed : Bool) : opSetKey index pressed s = s := if_pos hf

theorem opSetKey_of_latch (hf : s.NoFault) {index : Nat} (h : index ≤ 15) (pressed : Bool) :
    opSetKey index pressed s = s.setKey (BitVec.ofNat 4 index) pressed :=
  (if_neg (not_not_intro hf)).trans (if_neg h.not_gt)

theorem opSetKey_of_no_latch (hf : s.NoFault) {index : Nat} (h : 15 < index) (pressed : Bool) :
    opSetKey index pressed s = s.latch .hostKeyIndexOutOfRange 0x0000 (BitVec.ofNat 16 (min index 0xFFFF)) :=
  (if_neg (not_not_intro hf)).trans (if_pos h)

/-! #### An operation on a state with the invariant -/

/-- The stop of log entry 3 is the only way an instruction answers no next state. -/
theorem exec_completes (hsp : s.sp.toNat ≤ 16) (i : Instr) : ∃ t, exec i s = .next t := by
  cases i with
  | ret =>
    obtain ⟨-, he⟩ | ⟨-, -, he⟩ | ⟨hout, -⟩ := execRet_cases s
    · exact ⟨_, he⟩
    · exact ⟨_, he⟩
    · omega
  | call nnn =>
    obtain ⟨-, he⟩ | ⟨-, he⟩ | ⟨hout, -⟩ := execCall_cases nnn s
    · exact ⟨_, he⟩
    · exact ⟨_, he⟩
    · omega
  | drwVxVyN x y n =>
    obtain ⟨-, drawn, -, he⟩ | ⟨-, he⟩ := execDrwVxVyN_cases x y n s <;> exact ⟨_, he⟩
  | skpVx x | sknpVx x =>
    obtain ⟨-, he⟩ | ⟨-, he⟩ := skipOnKey_cases _ x _ s <;> exact ⟨_, he⟩
  | ldVxK x =>
    obtain ⟨k, -, he⟩ | ⟨-, he⟩ := keyWait_cases fx0aClobberVx x s <;> exact ⟨_, he⟩
  | ldBVx x | ldMemVx x =>
    obtain ⟨-, he⟩ | ⟨-, he⟩ := storeAtI_cases _ _ s <;> exact ⟨_, he⟩
  | ldVxMem x =>
    obtain ⟨-, he⟩ | ⟨-, he⟩ := execLdVxMem_cases x s <;> exact ⟨_, he⟩
  | _ => exact ⟨_, rfl⟩

theorem tick_completes (hsp : s.sp.toNat ≤ 16) : ∃ t, tick s = .next t := by
  obtain ⟨-, he⟩ | ⟨-, -, he⟩ | ⟨-, -, -, he⟩ | ⟨-, -, i, -, he⟩ := tick_cases s
  · exact ⟨_, he⟩
  · exact ⟨_, he⟩
  · exact ⟨_, he⟩
  · rw [he]
    exact exec_completes hsp i

theorem opReset_inv (s : State) : (opReset s).Inv :=
  invariantHoldsAtReset.of_same rfl rfl rfl rfl (show (0x0200 : Word).toNat ≤ 0x10FE by decide)

theorem State.Inv.loadProgram (h : s.Inv) (bytes : List Byte) : (opLoadProgram bytes s).Inv := by
  by_cases hf : s.NoFault
  · obtain hfit | hout := le_or_gt bytes.length 3584
    · rw [opLoadProgram_of_fits hf hfit]
      exact h.writeBytes (.inr (show 0x200 + bytes.length ≤ 0x1000 by omega))
    · rw [opLoadProgram_of_not_fits hf hout]
      exact h.latch (by decide) _ _
  · rwa [opLoadProgram_of_fault hf]

theorem State.Inv.setKey (h : s.Inv) (index : Nat) (pressed : Bool) : (opSetKey index pressed s).Inv := by
  by_cases hf : s.NoFault
  · obtain hlatch | hno := le_or_gt index 15
    · rw [opSetKey_of_latch hf hlatch]
      exact h
    · rw [opSetKey_of_no_latch hf hno]
      exact h.latch (by decide) _ _
  · rwa [opSetKey_of_fault hf]

theorem State.Inv.tickTimers (h : s.Inv) : (opTickTimers s).Inv := by
  by_cases hf : s.NoFault
  · rw [opTickTimers_of_noFault hf]
    exact h
  · rwa [opTickTimers_of_fault hf]

/-- Every operation on a state with the invariant completes and keeps it. -/
theorem State.Inv.perform (h : s.Inv) (op : Operation) : ∃ t r, perform op s = .next (t, r) ∧ t.Inv := by
  cases op with
  | new | reset => exact ⟨_, _, rfl, opReset_inv s⟩
  | loadProgram bytes => exact ⟨_, _, rfl, h.loadProgram bytes⟩
  | setKey index pressed => exact ⟨_, _, rfl, h.setKey index pressed⟩
  | tick =>
    obtain ⟨-, hsp, -⟩ := id h
    obtain ⟨t, ht⟩ := tick_completes hsp
    exact ⟨t, okOrErr t, by simp only [Machine.perform, ht], stepKeepsTheInvariant s t h ht⟩
  | tickTimers => exact ⟨_, _, rfl, h.tickTimers⟩
  | framebufferSnapshot => exact ⟨_, _, rfl, h⟩

/-! #### A schedule -/

theorem runOps_cons {op : Operation} {ops : List Operation} {u : State} {r : Response} {rs : List Response}
    (hop : perform op s = .next (t, r)) (hops : runOps ops t = .next (u, rs)) :
    runOps (op :: ops) s = .next (u, r :: rs) := by
  simp only [runOps, hop, hops]

/-- Settles O54, by induction on the schedule: its first operation completes and keeps the invariant, from which the
others run. -/
theorem everyScheduleCompletes : Obligations.EveryScheduleCompletes := by
  intro ops
  induction ops with
  | nil => exact fun s h => ⟨s, [], rfl, rfl, h⟩
  | cons op ops ih =>
    intro s h
    obtain ⟨t, r, hop, ht⟩ := h.perform op
    obtain ⟨u, rs, hops, hlen, hu⟩ := ih t ht
    exact ⟨u, r :: rs, runOps_cons hop hops, congrArg Nat.succ hlen, hu⟩

end Sys2Proof.Machine

/-! ### Faults: precise, and in the execute phase the rows of the cause table (60_exceptions.md R88 to R90) -/

namespace Sys2Proof.Machine

variable {s t : State}

/-- The rows of the cause table (R88) an instruction can raise in the execute phase on `s`: under the row's condition,
its cause and the address it records. -/
inductive ExecuteRow (s : State) : Instr → FaultCause → Word → Prop
  | call {nnn : Addr12} (h : s.sp = 16) : ExecuteRow s (.call nnn) .stackOverflow s.pc
  | ret (h : s.sp = 0) : ExecuteRow s .ret .stackUnderflow s.pc
  | drw {x y n : Nibble} (hn : 0 < n.toNat) (h : s.i.toNat + n.toNat - 1 > 0xFFF) :
      ExecuteRow s (.drwVxVyN x y n) .memAddrOutOfBounds (firstOutside s.i)
  | bcd {x : Nibble} (h : s.i.toNat + 2 > 0xFFF) : ExecuteRow s (.ldBVx x) .memAddrOutOfBounds (firstOutside s.i)
  | store {x : Nibble} (h : s.i.toNat + x.toNat > 0xFFF) :
      ExecuteRow s (.ldMemVx x) .memAddrOutOfBounds (firstOutside s.i)
  | load {x : Nibble} (h : s.i.toNat + x.toNat > 0xFFF) :
      ExecuteRow s (.ldVxMem x) .memAddrOutOfBounds (firstOutside s.i)
  | skp {x : Nibble} (h : (s.getV x).toNat > 15) : ExecuteRow s (.skpVx x) .keyIndexOutOfRange s.pc
  | sknp {x : Nibble} (h : (s.getV x).toNat > 15) : ExecuteRow s (.sknpVx x) .keyIndexOutOfRange s.pc

theorem storeAtI_fault {op : Word} {bs : List Byte} (ht : storeAtI op bs s = .next t) :
    t.fault = s.fault ∨
      0x1000 < s.i.toNat + bs.length ∧ t = s.latch .memAddrOutOfBounds op (firstOutside s.i) := by
  obtain ⟨-, he⟩ | ⟨h, he⟩ := storeAtI_cases op bs s <;> cases he.symm.trans ht
  · exact .inl rfl
  · exact .inr ⟨by omega, rfl⟩

theorem skipOnKey_fault {op : Word} {x : Nibble} {level : Bool} (ht : skipOnKey op x level s = .next t) :
    t.fault = s.fault ∨ 15 < (s.getV x).toNat ∧ t = s.latch .keyIndexOutOfRange op s.pc := by
  obtain ⟨-, he⟩ | ⟨h, he⟩ := skipOnKey_cases op x level s <;> cases he.symm.trans ht
  · exact .inl (skipIf_fault _ _)
  · exact .inr ⟨h, rfl⟩

/-- An instruction leaves the fault record as it was, or latches the fault of one row of the table and does nothing
else. -/
theorem exec_fault {i : Instr} (ht : exec i s = .next t) :
    t.fault = s.fault ∨ ∃ c a, ExecuteRow s i c a ∧ t = s.latch c (encode i) a := by
  cases i with
  | call nnn =>
    obtain ⟨h, he⟩ | ⟨-, he⟩ | ⟨-, he⟩ := execCall_cases nnn s <;> cases he.symm.trans ht
    · exact .inr ⟨_, _, .call (BitVec.eq_of_toNat_eq h), rfl⟩
    · exact .inl rfl
  | ret =>
    obtain ⟨h, he⟩ | ⟨-, -, he⟩ | ⟨-, he⟩ := execRet_cases s <;> cases he.symm.trans ht
    · exact .inr ⟨_, _, .ret (BitVec.eq_of_toNat_eq h), rfl⟩
    · exact .inl rfl
  | drwVxVyN x y n =>
    obtain ⟨-, drawn, -, he⟩ | ⟨h, he⟩ := execDrwVxVyN_cases x y n s <;> cases he.symm.trans ht
    · exact .inl rfl
    · exact .inr ⟨_, _, .drw (by omega) (by omega), rfl⟩
  | ldBVx x =>
    exact (storeAtI_fault ht).imp_right fun ⟨h, he⟩ => ⟨_, _, .bcd (by rw [length_bcdDigits] at h; omega), he⟩
  | ldMemVx x =>
    exact (storeAtI_fault ht).imp_right fun ⟨h, he⟩ => ⟨_, _, .store (by rw [length_blockRegs] at h; omega), he⟩
  | ldVxMem x =>
    obtain ⟨-, he⟩ | ⟨h, he⟩ := execLdVxMem_cases x s <;> cases he.symm.trans ht
    · exact .inl (setBlock_fault _ _ _)
    · exact .inr ⟨_, _, .load h, rfl⟩
  | skpVx x => exact (skipOnKey_fault ht).imp_right fun ⟨h, he⟩ => ⟨_, _, .skp h, he⟩
  | sknpVx x => exact (skipOnKey_fault ht).imp_right fun ⟨h, he⟩ => ⟨_, _, .sknp h, he⟩
  | ldVxK x =>
    obtain ⟨-, hparts⟩ := keyWait_frame ht
    exact .inl (hparts .fault (by simp))
  | seVxNn x nn | sneVxNn x nn | seVxVy x y | sneVxVy x y =>
    cases ht
    exact .inl (skipIf_fault _ _)
  | _ =>
    cases ht
    exact .inl rfl

/-- A tick leaves the fault record as it was, or latches a fault and does nothing else. -/
theorem tick_fault (ht : tick s = .next t) : t.fault = s.fault ∨ ∃ c o a, t = s.latch c o a := by
  obtain ⟨-, he⟩ | ⟨-, -, he⟩ | ⟨-, -, -, he⟩ | ⟨-, -, i, -, he⟩ := tick_cases s
  · cases he.symm.trans ht
    exact .inl rfl
  · cases he.symm.trans ht
    exact .inr ⟨_, _, _, rfl⟩
  · cases he.symm.trans ht
    exact .inr ⟨_, _, _, rfl⟩
  · obtain hkept | ⟨c, a, -, hlatch⟩ := exec_fault (he.symm.trans ht)
    · exact .inl hkept
    · exact .inr ⟨c, encode i, a, hlatch⟩

/-- Settles O9: of the two outcomes of a tick, the latch is the one that ends with a fault where none was. -/
theorem faultsArePrecise : Obligations.FaultsArePrecise := by
  intro s t hf ht hfault
  obtain hkept | ⟨c, o, a, rfl⟩ := tick_fault ht
  · exact absurd ((congrArg FaultRecord.cause hkept).trans hf) hfault
  · rfl

/-- Settles O10: the rows of the table, with their conditions. -/
theorem executeFaultsAreExactlyTheTable : Obligations.ExecuteFaultsAreExactlyTheTable := by
  intro i s t ht hne
  obtain hkept | ⟨c, a, hrow, rfl⟩ := exec_fault ht
  · exact absurd hkept hne
  refine ⟨rfl, rfl, ?_⟩
  have houtside := firstOutside_toNat s.i
  cases hrow with
  | call h => exact .inl ⟨_, rfl, h, rfl, rfl⟩
  | ret h => exact .inr (.inl ⟨rfl, h, rfl, rfl⟩)
  | drw hn h => exact .inr (.inr (.inl ⟨.inl ⟨_, _, _, rfl, hn, h⟩, rfl, houtside⟩))
  | bcd h => exact .inr (.inr (.inl ⟨.inr (.inl ⟨_, rfl, h⟩), rfl, houtside⟩))
  | store h => exact .inr (.inr (.inl ⟨.inr (.inr (.inl ⟨_, rfl, h⟩)), rfl, houtside⟩))
  | load h => exact .inr (.inr (.inl ⟨.inr (.inr (.inr ⟨_, rfl, h⟩)), rfl, houtside⟩))
  | skp h => exact .inr (.inr (.inr ⟨_, .inl rfl, h, rfl, rfl⟩))
  | sknp h => exact .inr (.inr (.inr ⟨_, .inr rfl, h, rfl, rfl⟩))

end Sys2Proof.Machine

/-! ### Host operations (60_exceptions.md R92, R96 to R101) -/

namespace Sys2Proof.Machine

variable {s : State}

/-! #### The results of load_program and set_key -/

/-- A program that fits is put at 0x200 upward, and no fault is latched. -/
theorem perform_loadProgram_of_fits (hf : s.NoFault) {bytes : List Byte} (h : bytes.length ≤ 3584) :
    perform (.loadProgram bytes) s = .next ({ s with mem := writeBytes s.mem 0x200 bytes }, .ok) := by
  rw [perform, opLoadProgram_of_fits hf h, okOrErr_of_noFault (by exact hf)]

theorem perform_loadProgram_of_not_fits (hf : s.NoFault) {bytes : List Byte} (h : 3584 < bytes.length) :
    perform (.loadProgram bytes) s =
      .next (s.latch .programTooLarge 0x0000 0x1000, .err ⟨.programTooLarge, 0x0000, 0x1000⟩) := by
  rw [perform, opLoadProgram_of_not_fits hf h]
  rfl

/-- Byte `k` of a block written at `a` is read at `a + k`. -/
theorem some_memGet_writeBytes (m : Memory) (a : Nat) {bs : List Byte} {k : Nat} (hk : k < bs.length) :
    some (memGet (writeBytes m a bs) (a + k)) = bs[k]? := by
  rw [memGet_writeBytes, if_pos (by omega), Nat.add_sub_cancel_left, List.getD_eq_getElem _ _ hk,
    List.getElem?_eq_getElem hk]

/-- Settles O47: a program that fits is one write of a block at 0x200, and one that does not is a latched fault. -/
theorem loadProgramCopiesAllOrNothing : Obligations.LoadProgramCopiesAllOrNothing := by
  intro s bytes hf
  refine ⟨fun hfits => ⟨_, perform_loadProgram_of_fits hf hfits, rfl, ?frame,
    fun k hk => some_memGet_writeBytes s.mem 0x200 hk, fun a ha => ?outside⟩, perform_loadProgram_of_not_fits hf⟩
  case frame => exact (Frame.refl _ _ s).setMem (by simp) _
  case outside => rw [memGet_writeBytes, if_neg (by omega)]

theorem perform_setKey_of_latch (hf : s.NoFault) {index : Nat} (h : index ≤ 15) (pressed : Bool) :
    perform (.setKey index pressed) s = .next (s.setKey (BitVec.ofNat 4 index) pressed, .ok) := by
  rw [perform, opSetKey_of_latch hf h, okOrErr_of_noFault (by exact hf)]

theorem perform_setKey_of_no_latch (hf : s.NoFault) {index : Nat} (h : 15 < index) (pressed : Bool) :
    perform (.setKey index pressed) s =
      .next (s.latch .hostKeyIndexOutOfRange 0x0000 (BitVec.ofNat 16 (min index 0xFFFF)),
        .err ⟨.hostKeyIndexOutOfRange, 0x0000, BitVec.ofNat 16 (min index 0xFFFF)⟩) := by
  rw [perform, opSetKey_of_no_latch hf h]
  rfl

theorem Frame.setKey {t : State} {regs : List Nibble} {parts : List StatePart} (h : Frame regs parts s t)
    (hp : .key ∈ parts) (k : Nibble) (b : Bool) : Frame regs parts s (t.setKey k b) :=
  h.update hp rfl

/-- A latch index is the number of one latch: it is not wrapped. -/
theorem eq_ofNat_latch_iff {index : Nat} (h : index ≤ 15) (k : Nibble) :
    k = BitVec.ofNat 4 index ↔ k.toNat = index := by
  rw [← BitVec.toNat_inj, BitVec.toNat_ofNat, Nat.mod_eq_of_lt (by omega)]

/-- Settles O46: an index up to 15 is one write of a latch, and any other is a latched fault. -/
theorem setKeyWritesOneLatch : Obligations.SetKeyWritesOneLatch := by
  intro s index pressed hf
  refine ⟨fun h => ⟨_, perform_setKey_of_latch hf h pressed, rfl, (Frame.refl _ _ s).setKey (by simp) _ _,
    fun k => ?latches⟩, fun h => ⟨_, rfl, rfl, ?address, perform_setKey_of_no_latch hf h pressed⟩⟩
  case latches => simp only [keyAt_setKey, eq_ofNat_latch_iff h]
  case address => rw [BitVec.toNat_ofNat, Nat.mod_eq_of_lt (by omega)]

/-! #### Timer ticks and the snapshot -/

/-- Settles O45: the timer tick writes the two timers, each with its count. -/
theorem timerTickCountsDownAndReports : Obligations.TimerTickCountsDownAndReports := by
  intro s hf
  have hperform := perform_tickTimers_of_noFault hf
  rw [opTickTimers_of_noFault hf, beep_eq_decide] at hperform
  refine ⟨_, _, hperform, countDown_toNat s.dt, countDown_toNat s.st, decide_eq_true_iff, rfl, ?frame⟩
  case frame => exact ((Frame.refl [] [.dt, .st] s).setDt (by simp) (countDown s.dt)).setSt (by simp) (countDown s.st)

/-- The snapshot lists the pixels of the 2048 places in order. -/
theorem opFramebufferSnapshot_eq (s : State) :
    opFramebufferSnapshot s = (List.range 2048).map fun k => s.pixel (placeOf k).1 (placeOf k).2 := rfl

/-- Settles O49: place `col + 64*row` of the list is the place of that column and row. -/
theorem snapshotIsRowMajor : Obligations.SnapshotIsRowMajor := by
  intro s
  refine ⟨_, rfl, ?length, fun col row => ?entry⟩
  case length => rw [opFramebufferSnapshot_eq, List.length_map, List.length_range]
  case entry =>
    have hplace : col.toNat + 64 * row.toNat < 2048 := by
      have hcol := col.isLt
      have hrow := row.isLt
      omega
    rw [opFramebufferSnapshot_eq, List.getElem?_map, List.getElem?_range hplace, Option.map_some,
      placeOf_col_add_row (col, row)]

/-! #### A faulted machine -/

/-- Settles O8: each operation but `reset` tests the latch first, or reads only. -/
theorem faultedMachineChangesNothing : Obligations.FaultedMachineChangesNothing := by
  intro s hf
  have htick : tick s = .next s := if_pos hf
  have herr : okOrErr s = .err s.fault := okOrErr_of_fault hf
  refine ⟨htick, ?tick, ?tickTimers, fun bytes => ?loadProgram, fun k b => ?setKey, ⟨_, rfl⟩, ⟨_, rfl, rfl⟩⟩
  case tick => simp only [perform, htick, herr]
  case tickTimers => rw [perform, opTickTimers_of_fault hf, if_neg hf]
  case loadProgram => rw [perform, opLoadProgram_of_fault hf, herr]
  case setKey => rw [perform, opSetKey_of_fault hf, herr]

end Sys2Proof.Machine

/-! ### The end of a run (70_reset_and_hazards.md R116): the self-jump with no fault latched -/

namespace Sys2Proof.Machine

variable {s t : State} {a : Addr12}

/-- The tick of a finished machine jumps to where PC already is. -/
theorem Finished.step_eq (h : Finished a s) : step s = .next s := by
  obtain ⟨hf, hpc, ha, hop⟩ := h
  obtain ⟨t, hjump, -, -, hself⟩ := jumpSetsPc s a
  calc step s = exec (.jp a) s :=
        step_eq_exec hf (hpc.trans_le ha) (by rw [hop, (decodeOfEncodeIsTheInstruction _).1])
    _ = .next t := hjump
    _ = .next s := by rw [hself hpc]

/-- A state that one step answers unchanged is the answer of any number of steps. -/
theorem run_of_step_eq_self (h : step s = .next s) (m : Nat) : Host.Core.run Sys2Proof.core m s = .next s := by
  induction m with
  | zero => rfl
  | succ m ih =>
    rw [run_succ, h]
    exact ih

/-- Whether a machine has finished is a matter of FAULT, PC and memory alone. -/
theorem Finished.of_same (h : Finished a s) (hfault : t.fault = s.fault) (hpc : t.pc = s.pc) (hmem : t.mem = s.mem) :
    Finished a t := by
  rwa [Finished, State.NoFault, hfault, hpc, hmem]

/-- A timer tick writes the two timers only. -/
theorem Finished.tickTimers (h : Finished a s) : Finished a (opTickTimers s) := by
  rw [opTickTimers_of_noFault h.1]
  exact h.of_same rfl rfl rfl

/-- A key change with the index of a latch writes that latch only. -/
theorem Finished.setKey (h : Finished a s) {index : Nat} (hi : index ≤ 15) (pressed : Bool) :
    Finished a (opSetKey index pressed s) := by
  rw [opSetKey_of_latch h.1 hi]
  exact h.of_same rfl rfl rfl

/-- Settles O56: every tick is a jump to PC itself, and the two host operations leave FAULT, PC and memory as they
are. -/
theorem selfJumpIsAFixedPoint : Obligations.SelfJumpIsAFixedPoint := fun _ _ h =>
  ⟨run_of_step_eq_self h.step_eq, h.tickTimers, fun _ b hk => h.setKey hk b⟩

end Sys2Proof.Machine
